-- ==== Sys2Proof/Word.lean ====
section
/-! DEFINITION. The machine's values: bytes, addresses and register indices (00_scope.md R8, R9). -/

namespace Sys2Proof

/-- A byte `u8`: what every register and every memory cell holds (R9). -/
abbrev Byte := BitVec 8

/-- An 8-bit address: `ADDR_WIDTH` is 8, so an `Addr` always names a cell (R8, R32). -/
abbrev Addr := BitVec 8

/-- A register index inside `[0, 8)` (R15). -/
abbrev Reg := Fin 8

end Sys2Proof
end

