-- ==== Sys2Proof/Config.lean ====
section
/-! DEFINITION. The implementation parameters of 00_scope.md R8. The spec leaves none of them open
("None is left open as a model argument"), so this file holds no free value. -/

namespace Sys2Proof.Config

/-- `MEM_SIZE` (R8). -/
abbrev memSize : Nat := 256

/-- `NREGS` (R8); `Sys2Proof.Reg` is `Fin nregs`. -/
abbrev nregs : Nat := 8

/-- `SP_INDEX` (R8, R16). -/
abbrev spIndex : Reg := 7

/-- `SP_RESET` (R8, R20). -/
abbrev spReset : Byte := 0xF4#8

/-- The reset value of R0 to R6 (R20). -/
abbrev regReset : Byte := 0#8

/-- `PC_RESET` (R8, R21). -/
abbrev pcReset : Nat := 0

/-- `LOAD_BASE` (R8, R103). -/
abbrev loadBase : Nat := 0

/-- What a cell holds after RESET (R28), and so what an unlisted address reads as. -/
abbrev cellReset : Byte := 0#8

end Sys2Proof.Config
end

