-- ==== Sys2Proof/Syntax.lean ====
section
/-! DEFINITION. The instruction set as data: eleven opcodes (30_encoding.md R49) and their operand bytes (R50).
A register operand is kept as the whole byte the encoding holds (R52); `WellFormed` says which bytes name a register. -/

namespace Sys2Proof

/-- One instruction with its operand bytes, in the order of the table of R49. `a` is the first operand byte `A`,
`b` the second `B` (R13). -/
inductive Instr where
  /-- HLT, format F0 (R75). -/
  | hlt
  /-- PRN A, format FR (R76). -/
  | prn (a : Byte)
  /-- LDI A,imm8, format FRI (R77). -/
  | ldi (a imm : Byte)
  /-- PUSH A, format FR (R81). -/
  | push (a : Byte)
  /-- POP A, format FR (R82). -/
  | pop (a : Byte)
  /-- CALL A, format FR (R83). -/
  | call (a : Byte)
  /-- RET, format F0 (R84). -/
  | ret
  /-- ADD A,B, format FRR (R88). -/
  | add (a b : Byte)
  /-- SUB A,B, format FRR (R89); `DEC` is an alias spelling (R60). -/
  | sub (a b : Byte)
  /-- MUL A,B, format FRR (R90). -/
  | mul (a b : Byte)
  /-- ST A,B, format FRR (R78): `A` holds the address, `B` the value (R54). -/
  | st (a b : Byte)
  deriving DecidableEq, Repr

/-- The eleven opcodes: the handler selects of the decoder (R67). -/
inductive Opcode where
  | hlt | prn | ldi | push | pop | call | ret | add | sub | mul | st
  deriving DecidableEq, Repr

/-- The four formats of R50. -/
inductive Format where
  | f0 | fr | frr | fri
  deriving DecidableEq, Repr

/-- The opcode of an instruction. -/
def Instr.opcode : Instr → Opcode
  | .hlt => .hlt
  | .prn _ => .prn
  | .ldi _ _ => .ldi
  | .push _ => .push
  | .pop _ => .pop
  | .call _ => .call
  | .ret => .ret
  | .add _ _ => .add
  | .sub _ _ => .sub
  | .mul _ _ => .mul
  | .st _ _ => .st

/-- The operand bytes in encoding order (R50). -/
def Instr.operands : Instr → List Byte
  | .hlt => []
  | .prn a => [a]
  | .ldi a imm => [a, imm]
  | .push a => [a]
  | .pop a => [a]
  | .call a => [a]
  | .ret => []
  | .add a b => [a, b]
  | .sub a b => [a, b]
  | .mul a b => [a, b]
  | .st a b => [a, b]

end Sys2Proof
end

