-- ==== Sys2Proof/WellFormed.lean ====
section
/-! DEFINITION. Which instructions are well formed: every operand byte that names a register lies in `[0, 8)`
(30_encoding.md R52; 40_execution_engine.md R64 `REGOPS`, R70). An immediate is always legal (R53). -/

namespace Sys2Proof

/-- The operand bytes that name a register, `A` first: `REGOPS` of R64 is `{}` for F0, `{1}` for FR and FRI,
`{1, 2}` for FRR. -/
def Instr.regOperands : Instr → List Byte
  | .hlt => []
  | .prn a => [a]
  | .ldi a _ => [a]
  | .push a => [a]
  | .pop a => [a]
  | .call a => [a]
  | .ret => []
  | .add a b => [a, b]
  | .sub a b => [a, b]
  | .mul a b => [a, b]
  | .st a b => [a, b]

/-- Every register operand is below 8: "Index must be in `[0, 8)`" (R52). -/
abbrev Instr.WellFormed (i : Instr) : Prop :=
  ∀ r ∈ i.regOperands, r.toNat < Config.nregs

end Sys2Proof
end

