-- ==== Sys2Proof/Decode.lean ====
section
/-! DEFINITION. The decoder and the encoder, both written from the opcode table and the formats of
30_encoding.md R49 and R50. Arity comes from the table, never from bits of the opcode (R51, R58). -/

namespace Sys2Proof

/-- Every opcode, in the order of the table of R49. -/
def Opcode.all : List Opcode :=
  [.hlt, .prn, .ldi, .push, .pop, .call, .ret, .add, .sub, .mul, .st]

/-- The opcode byte (R49). -/
def Opcode.byte : Opcode → Byte
  | .hlt => 0x01#8
  | .prn => 0x47#8
  | .ldi => 0x82#8
  | .push => 0x45#8
  | .pop => 0x46#8
  | .call => 0x50#8
  | .ret => 0x11#8
  | .add => 0xA0#8
  | .sub => 0x66#8
  | .mul => 0xA2#8
  | .st => 0x84#8

/-- The format of an opcode (R49, R50). -/
def Opcode.format : Opcode → Format
  | .hlt => .f0
  | .prn => .fr
  | .ldi => .fri
  | .push => .fr
  | .pop => .fr
  | .call => .fr
  | .ret => .f0
  | .add => .frr
  | .sub => .frr
  | .mul => .frr
  | .st => .frr

/-- How many operand bytes a format has (R50). -/
def Format.arity : Format → Nat
  | .f0 => 0
  | .fr => 1
  | .frr => 2
  | .fri => 2

/-- `ARITY[op]` (R64): a static property of the opcode (R48). -/
def Opcode.arity (o : Opcode) : Nat := o.format.arity

/-- `len` = 1 + arity (R49). -/
def Opcode.len (o : Opcode) : Nat := 1 + o.arity

/-- The lookup of R66: the opcode whose byte this is, or none for the 245 illegal bytes of R55. -/
def Opcode.ofByte? (b : Byte) : Option Opcode :=
  Opcode.all.find? (fun o => o.byte == b)

/-- Why some bytes are no instruction. -/
inductive DecodeError where
  /-- There is no opcode byte. -/
  | noOpcode
  /-- The opcode byte is not in the table (R55). -/
  | illegalOpcode (op : Byte)
  /-- The opcode `op` needs more operand bytes than the `got` ones that follow it (R69). -/
  | missingOperand (op : Byte) (got : List Byte)
  deriving DecidableEq, Repr

/-- The instruction that an opcode and the bytes after it make, with the bytes left over; none when an operand byte
is missing. -/
def Opcode.withOperands : Opcode → List Byte → Option (Instr × List Byte)
  | .hlt, rest => some (.hlt, rest)
  | .ret, rest => some (.ret, rest)
  | .prn, a :: rest => some (.prn a, rest)
  | .push, a :: rest => some (.push a, rest)
  | .pop, a :: rest => some (.pop a, rest)
  | .call, a :: rest => some (.call a, rest)
  | .ldi, a :: imm :: rest => some (.ldi a imm, rest)
  | .add, a :: b :: rest => some (.add a b, rest)
  | .sub, a :: b :: rest => some (.sub a b, rest)
  | .mul, a :: b :: rest => some (.mul a b, rest)
  | .st, a :: b :: rest => some (.st a b, rest)
  | _, _ => none

/-- The decoder, total on any bytes. It does not check register operands: that is a check of its own, made after
operand fetch (R70), in `Machine/Operands.lean`. -/
def decode : List Byte → Except DecodeError (Instr × List Byte)
  | [] => .error .noOpcode
  | op :: rest =>
    match Opcode.ofByte? op with
    | none => .error (.illegalOpcode op)
    | some o =>
      match o.withOperands rest with
      | some r => .ok r
      | none => .error (.missingOperand op rest)

/-- The bytes of an instruction: the opcode, then the operands at ascending addresses (R38, R50). -/
def encode (i : Instr) : List Byte :=
  i.opcode.byte :: i.operands

/-- Byte `k` of a table word: bits `8k+7` to `8k`, so byte 0 is the opcode. Bits at or above `nbits` are 0. -/
def tableByte (nbits w k : Nat) : Byte :=
  BitVec.ofNat 8 ((w % 2 ^ nbits) / 2 ^ (8 * k))

/-- The three bytes of a table word in memory order; three is the longest instruction (R48). -/
def tableBytes (nbits w : Nat) : List Byte :=
  [tableByte nbits w 0, tableByte nbits w 1, tableByte nbits w 2]

/-- The instruction the decoder reads from a word numbered as the opcode table numbers it. -/
def decodeTableWord (nbits w : Nat) : Option Instr :=
  match decode (tableBytes nbits w) with
  | .ok (i, _) => some i
  | .error _ => none

end Sys2Proof
end

