-- ==== Sys2Proof/Machine/State.lean ====
section
/-! DEFINITION. The complete architectural state (10_state.md R31), the fault records (60_exceptions.md R93, R94),
memory as data in one canonical form, and the state after RESET (70_reset_and_hazards.md R115). -/

namespace Sys2Proof.Machine

/-- The sub-kinds of `OutOfBoundsAccess` (R93). -/
inductive BoundsKind where
  /-- `FETCH_ADDRESS`: `pc >= 256` at fetch (R65). -/
  | fetchAddress
  /-- `OPERAND_ADDRESS`: an operand address of 256 or more (R69). -/
  | operandAddress
  /-- `REGISTER_INDEX`: a register operand byte of 8 or more (R70). -/
  | registerIndex
  /-- `RETURN_ADDRESS`: CALL's return address is 256 or more (R83). -/
  | returnAddress
  deriving DecidableEq, Repr

/-- The three engine faults (R92). -/
inductive FaultKind where
  | illegalInstruction
  /-- Never raised by this block (45_alu.md R87, 90_conflicts.md C5); kept because R93 keeps its code. -/
  | unsupportedOperation
  | outOfBoundsAccess (sub : BoundsKind)
  deriving DecidableEq, Repr

/-- A fault record (R94). The spec's fields `code` and `sub` are `kind.code` and `kind.sub?` of `Machine/Faults.lean`
(DESIGN CHOICE, safe, log entry 6). -/
structure FaultRecord where
  kind     : FaultKind
  /-- The address of the faulting instruction's opcode byte. -/
  pc       : Nat
  /-- The fetched opcode byte; none for `FETCH_ADDRESS`. -/
  opcode   : Option Byte
  /-- The operand bytes fetched before the fault, in order. -/
  operands : List Byte
  /-- The column `value` of R93. -/
  value    : Nat
  deriving DecidableEq, Repr

/-- The memory: the cells that do not hold the reset value, by rising address. -/
abbrev Memory := List Host.Cell

/-- The canonical form: addresses strictly rising and below 256, and no cell listed with the value that an unlisted
address reads as. DESIGN CHOICE, safe (log entry 4). -/
abbrev Memory.wf (m : Memory) : Prop :=
  m.Pairwise (fun c d => c.1 < d.1) ∧ ∀ c ∈ m, c.1 < Config.memSize ∧ c.2 ≠ Config.cellReset

/-- The complete state of the block: the tuple of R31. "There is no other state." -/
structure State where
  /-- `x[0]` to `x[7]` (R15). -/
  regs    : Vector Byte 8
  /-- The program counter, a natural number (R21; DESIGN CHOICE beyond 256, safe, log entry 5). -/
  pc      : Nat
  /-- The running flag (R24). -/
  running : Bool
  /-- The fault latch (R25). -/
  fault   : Option FaultRecord
  /-- `mem[0]` to `mem[255]` (R28). -/
  mem     : Memory
  /-- The bytes emitted by PRN, oldest first (R27). -/
  out     : List Byte
  deriving DecidableEq, Repr

/-- The state RESET leaves (R115, R20, R31). -/
def State.reset : State where
  regs    := #v[Config.regReset, Config.regReset, Config.regReset, Config.regReset,
                Config.regReset, Config.regReset, Config.regReset, Config.spReset]
  pc      := Config.pcReset
  running := true
  fault   := none
  mem     := []
  out     := []

/-- The engine's status, derived and not stored (R26). -/
inductive Status where
  | running
  | halted
  | faulted (r : FaultRecord)
  deriving DecidableEq, Repr

/-- Why no step happens: the loop of R63 has ended and RUN has a result (R102). An instruction's own fault is NOT
one of these: raising it is a next state with the latch set (R95). -/
inductive Fault where
  /-- Raised by `step` when `running` is false: RUN has returned `Halted`. Safe: the hardware executes nothing until
  the host issues RUN (R73, R113). -/
  | halted
  /-- Raised by `step` when the latch holds `r`: RUN has returned `r`. Safe: the hardware executes nothing until
  RESET (R25, R98). -/
  | latched (r : FaultRecord)
  deriving DecidableEq, Repr

/-- Why the model gives an instruction no meaning. -/
inductive Refusal where
  /-- Raised by an arm of `exec` with no meaning yet; no arm raises it in this model. Safe. -/
  | notModelled (mnemonic : String)
  deriving DecidableEq, Repr

/-- What a step or a meaning answers. -/
abbrev Result := Host.Outcome State Fault Refusal

end Sys2Proof.Machine
end

