-- ==== Sys2Proof/Machine/Faults.lean ====
section
/-! DEFINITION. The numeric codes of 60_exceptions.md R93 and the records of R94. -/

namespace Sys2Proof.Machine

/-- Sub-kind numbers of code 3 (R93). -/
def BoundsKind.number : BoundsKind → Nat
  | .fetchAddress => 0
  | .operandAddress => 1
  | .registerIndex => 2
  | .returnAddress => 3

/-- The column `code` of R93. Code 0 is not used. -/
def FaultKind.code : FaultKind → Nat
  | .illegalInstruction => 1
  | .unsupportedOperation => 2
  | .outOfBoundsAccess _ => 3

/-- The column `sub-kind` of R93: only code 3 has one. -/
def FaultKind.sub? : FaultKind → Option Nat
  | .illegalInstruction => none
  | .unsupportedOperation => none
  | .outOfBoundsAccess k => some k.number

/-- `FETCH_ADDRESS`: there is no opcode, and the value is `pc` (R65). -/
def fetchAddressRecord (p : Nat) : FaultRecord where
  kind := .outOfBoundsAccess .fetchAddress
  pc := p
  opcode := none
  operands := []
  value := p

/-- `IllegalInstruction`: no operand is fetched, and the value is the opcode byte (R66, R93). -/
def illegalInstructionRecord (p : Nat) (op : Byte) : FaultRecord where
  kind := .illegalInstruction
  pc := p
  opcode := some op
  operands := []
  value := op.toNat

/-- `OPERAND_ADDRESS` after the operands `got`: the value is the first address with no cell (R69). -/
def operandAddressRecord (p : Nat) (op : Byte) (got : List Byte) : FaultRecord where
  kind := .outOfBoundsAccess .operandAddress
  pc := p
  opcode := some op
  operands := got
  value := p + 1 + got.length

/-- `REGISTER_INDEX`: all operands are fetched, and the value is the offending byte (R70). -/
def registerIndexRecord (p : Nat) (i : Instr) (operand : Byte) : FaultRecord where
  kind := .outOfBoundsAccess .registerIndex
  pc := p
  opcode := some i.opcode.byte
  operands := i.operands
  value := operand.toNat

/-- `RETURN_ADDRESS`: the value is the return address that does not fit a byte (R83). -/
def returnAddressRecord (p : Nat) (i : Instr) (ret : Nat) : FaultRecord where
  kind := .outOfBoundsAccess .returnAddress
  pc := p
  opcode := some i.opcode.byte
  operands := i.operands
  value := ret

end Sys2Proof.Machine
end

