-- ==== Sys2Proof/Machine/Ops.lean ====
section
/-! DEFINITION. The named operations over registers, memory, output and the fault latch: the primitives of
00_scope.md R11, `raise` (60_exceptions.md R95) and the stack-pointer updates (43_stack.md R80). There is no return from
a fault (R98), so there is no operation for one. -/

namespace Sys2Proof.Machine

/-- The byte at address `a`: the listed one, else the reset value (R33). -/
def Memory.lookup : Memory → Nat → Byte
  | [], _ => Config.cellReset
  | (k, v) :: m, a => if k = a then v else Memory.lookup m a

/-- Put `v` at `a`, keeping the canonical form: a cell that gets the reset value is no longer listed. -/
def Memory.put : Memory → Nat → Byte → Memory
  | [], a, v => if v = Config.cellReset then [] else [(a, v)]
  | (k, w) :: m, a, v =>
    if a < k then
      if v = Config.cellReset then (k, w) :: m else (a, v) :: (k, w) :: m
    else if a = k then
      if v = Config.cellReset then m else (a, v) :: m
    else (k, w) :: Memory.put m a v

/-- `MemRead(a, 1)` (R11, R33); 1 is the only width (R37). -/
def Memory.read (m : Memory) (a : Addr) : Byte := m.lookup a.toNat

/-- `MemWrite(a, 1, v)` (R11, R33). -/
def Memory.write (m : Memory) (a : Addr) (v : Byte) : Memory := m.put a.toNat v

/-- The byte at a natural-number address, or none when there is no such cell: addresses are never reduced modulo 256
(R36). -/
def Memory.read? (m : Memory) (a : Nat) : Option Byte :=
  if a < Config.memSize then some (m.read (BitVec.ofNat 8 a)) else none

/-- `x[r]` (R11, R15). No register is hardwired (R17). -/
def State.reg (s : State) (r : Reg) : Byte := s.regs[r]

/-- `x[r] <- v` (R11). -/
def State.setReg (s : State) (r : Reg) (v : Byte) : State :=
  { s with regs := s.regs.set r v }

/-- `SP` is another name for `x[7]` (R11, R16). -/
def State.sp (s : State) : Byte := s.reg Config.spIndex

/-- `x[7] <- (x[7] - 1) mod 256`, the first half of a push (R80). -/
def State.decSp (s : State) : State := s.setReg Config.spIndex (s.sp - 1)

/-- `x[7] <- (x[7] + 1) mod 256`, the second half of a pop (R80). -/
def State.incSp (s : State) : State := s.setReg Config.spIndex (s.sp + 1)

/-- `mem[a]` (R11). -/
def State.cell (s : State) (a : Addr) : Byte := s.mem.read a

/-- `MemWrite(a, 1, v)` on the state (R11). -/
def State.store (s : State) (a : Addr) (v : Byte) : State :=
  { s with mem := s.mem.write a v }

/-- `pc <- t` (R11). -/
def State.setPc (s : State) (t : Nat) : State := { s with pc := t }

/-- `running <- b` (R11). -/
def State.setRunning (s : State) (b : Bool) : State := { s with running := b }

/-- `emit(v)`: the byte goes to the output channel, recorded in `out` (R11, R27, R104). -/
def State.emit (s : State) (v : Byte) : State := { s with out := s.out ++ [v] }

/-- `raise E(info)`: sets the latch and changes nothing else (R95). -/
def State.raise (s : State) (r : FaultRecord) : State := { s with fault := some r }

/-- The status of R26: a latched record comes before the running flag. -/
def State.status (s : State) : Status :=
  match s.fault with
  | some r => .faulted r
  | none => if s.running then .running else .halted

end Sys2Proof.Machine
end

