-- ==== Sys2Proof/Machine/Operands.lean ====
section
/-! DEFINITION. The operand forms. A register operand is a whole byte checked against `[0, 8)` (30_encoding.md R52,
40_execution_engine.md R70); an immediate is a whole byte used as it is (R53). There is no memory operand (R54). -/

namespace Sys2Proof.Machine

/-- The register a byte names, or none: there is no partial decoding, so 0x08 does not name R0 (R52). -/
def regOf? (operand : Byte) : Option Reg :=
  if h : operand.toNat < Config.nregs then some ⟨operand.toNat, h⟩ else none

/-- Go on with the register that the operand byte of `i` names, or raise `REGISTER_INDEX` (R70). Nesting this for `A`
and then `B` gives the ascending order of R70 and R96. That the check stands here is DEDUCED, safe (log entry 7). -/
def withReg (i : Instr) (operand : Byte) (s : State) (k : Reg → Result) : Result :=
  match regOf? operand with
  | some r => k r
  | none => .next (s.raise (registerIndexRecord s.pc i operand))

end Sys2Proof.Machine
end

