-- ==== Sys2Proof/Machine/Alu.lean ====
section
/-! DEFINITION. The ALU (45_alu.md R86, R87) and the instructions ADD, SUB and MUL (R88 to R90). -/

namespace Sys2Proof.Machine

/-- The closed set of ALU operations (R87). -/
inductive AluOp where
  | add | sub | mul
  deriving DecidableEq, Repr

/-- The exact integer result, before reduction (R9, R91). -/
def AluOp.exact : AluOp → Int → Int → Int
  | .add, a, b => a + b
  | .sub, a, b => a - b
  | .mul, a, b => a * b

/-- `alu(op, a, b)`: the exact result modulo 256 (R86). -/
def alu (op : AluOp) (a b : Byte) : Byte :=
  BitVec.ofInt 8 (op.exact (a.toNat : Int) (b.toNat : Int))

/-- What the three arithmetic instructions share: `x[A] <- alu(op, x[A], x[B])`, then `pc <- p + 3` (R86). -/
def execAlu (op : AluOp) (i : Instr) (a b : Byte) (s : State) : Result :=
  withReg i a s fun ra => withReg i b s fun rb =>
    .next ((s.setReg ra (alu op (s.reg ra) (s.reg rb))).setPc (s.pc + 3))

/-- ADD (R88). -/
def execAdd (a b : Byte) (s : State) : Result := execAlu .add (.add a b) a b s

/-- SUB, `x[A] - x[B]` (R89). -/
def execSub (a b : Byte) (s : State) : Result := execAlu .sub (.sub a b) a b s

/-- MUL (R90). -/
def execMul (a b : Byte) (s : State) : Result := execAlu .mul (.mul a b) a b s

end Sys2Proof.Machine
end

