-- ==== Sys2Proof/Machine/ControlTransfer.lean ====
section
/-! DEFINITION. CALL and RET (44_control_transfer.md R83, R84). They assign `pc` directly and do not advance it (R71). -/

namespace Sys2Proof.Machine

/-- CALL (R83): the return-address check comes before every write; `x[A]` is read after the SP write. At a `pc` where CALL
does not fit, which `step` never reaches, the check is the same (DEDUCED, safe, log entry 12). -/
def execCall (a : Byte) (s : State) : Result :=
  withReg (.call a) a s fun ra =>
    let ret := s.pc + 2
    if Config.memSize ≤ ret then
      .next (s.raise (returnAddressRecord s.pc (.call a) ret))
    else
      let s1 := s.decSp
      .next ((s1.store s1.sp (BitVec.ofNat 8 ret)).setPc (s1.reg ra).toNat)

/-- RET (R84). -/
def execRet (s : State) : Result :=
  .next (s.incSp.setPc (s.cell s.sp).toNat)

end Sys2Proof.Machine
end

