-- ==== Sys2Proof/Machine/DataMovement.lean ====
section
/-! DEFINITION. LDI and ST (42_data_movement.md R77, R78). -/

namespace Sys2Proof.Machine

/-- LDI (R77): the immediate is never checked. -/
def execLdi (a imm : Byte) (s : State) : Result :=
  withReg (.ldi a imm) a s fun ra => .next ((s.setReg ra imm).setPc (s.pc + 3))

/-- ST (R78): a real store of `x[B]` at the address in `x[A]` (90_conflicts.md C2). -/
def execSt (a b : Byte) (s : State) : Result :=
  withReg (.st a b) a s fun ra => withReg (.st a b) b s fun rb =>
    .next ((s.store (s.reg ra) (s.reg rb)).setPc (s.pc + 3))

end Sys2Proof.Machine
end

