-- ==== Sys2Proof/Machine/HaltOutput.lean ====
section
/-! DEFINITION. HLT and PRN (41_halt_output.md R75, R76). -/

namespace Sys2Proof.Machine

/-- HLT (R75): clears `running` and advances `pc` like the other instructions that do not transfer control (R71). -/
def execHlt (s : State) : Result :=
  .next ((s.setRunning false).setPc (s.pc + 1))

/-- PRN (R76). -/
def execPrn (a : Byte) (s : State) : Result :=
  withReg (.prn a) a s fun ra => .next ((s.emit (s.reg ra)).setPc (s.pc + 2))

end Sys2Proof.Machine
end

