-- ==== Sys2Proof/Machine/Stack.lean ====
section
/-! DEFINITION. PUSH and POP (43_stack.md R81, R82). Their statements run in the order written, and each sees the
earlier writes (00_scope.md R12), which decides the forms that name R7 (70_reset_and_hazards.md R122). -/

namespace Sys2Proof.Machine

/-- PUSH (R81): `x[A]` is read after the SP write. -/
def execPush (a : Byte) (s : State) : Result :=
  withReg (.push a) a s fun ra =>
    let s1 := s.decSp
    .next ((s1.store s1.sp (s1.reg ra)).setPc (s.pc + 2))

/-- POP (R82): the increment reads `x[7]` after the write of `x[A]`. -/
def execPop (a : Byte) (s : State) : Result :=
  withReg (.pop a) a s fun ra =>
    .next (((s.setReg ra (s.cell s.sp)).incSp).setPc (s.pc + 2))

end Sys2Proof.Machine
end

