-- ==== Sys2Proof/Machine/Dispatch.lean ====
section
/-! DEFINITION. The dispatch multiplexer (40_execution_engine.md R67): one handler for each instruction. -/

namespace Sys2Proof.Machine

/-- The register-operand check and the handler of one decoded instruction (the end of `Step()` in R64). -/
def exec (i : Instr) (s : State) : Host.Outcome State Fault Refusal :=
  match i with
  | .hlt => Sys2Proof.Machine.execHlt s
  | .prn a => Sys2Proof.Machine.execPrn a s
  | .ldi a imm => Sys2Proof.Machine.execLdi a imm s
  | .push a => Sys2Proof.Machine.execPush a s
  | .pop a => Sys2Proof.Machine.execPop a s
  | .call a => Sys2Proof.Machine.execCall a s
  | .ret => Sys2Proof.Machine.execRet s
  | .add a b => Sys2Proof.Machine.execAdd a b s
  | .sub a b => Sys2Proof.Machine.execSub a b s
  | .mul a b => Sys2Proof.Machine.execMul a b s
  | .st a b => Sys2Proof.Machine.execSt a b s

end Sys2Proof.Machine
end

