-- ==== Sys2Proof/Machine/Fetch.lean ====
section
/-! DEFINITION. Fetching an instruction's bytes and raising the faults of fetch and decode (40_execution_engine.md
R64 to R69). -/

namespace Sys2Proof.Machine

/-- The `n` bytes from address `a` on, in order, as far as there are cells (R69). -/
def fetchOperands (m : Memory) (a : Nat) : Nat → List Byte
  | 0 => []
  | n + 1 =>
    match m.read? a with
    | none => []
    | some b => b :: fetchOperands m (a + 1) n

/-- How many operand bytes are fetched after this opcode byte: its arity, and none for an illegal opcode, "since it
has no arity" (R66, R68). -/
def operandCount (op : Byte) : Nat :=
  match Opcode.ofByte? op with
  | none => 0
  | some o => o.arity

/-- The bytes the engine fetches at `p`: the opcode, then exactly `ARITY[op]` operand bytes (R65, R68). The list is
shorter where an address has no cell. -/
def fetch (m : Memory) (p : Nat) : List Byte :=
  match m.read? p with
  | none => []
  | some op => op :: fetchOperands m (p + 1) (operandCount op)

/-- The record of a fetch that gives no instruction: `FETCH_ADDRESS`, `IllegalInstruction` or `OPERAND_ADDRESS`
(R65, R66, R69). -/
def decodeFault (p : Nat) : DecodeError → FaultRecord
  | .noOpcode => fetchAddressRecord p
  | .illegalOpcode op => illegalInstructionRecord p op
  | .missingOperand op got => operandAddressRecord p op got

/-- Put bytes at ascending addresses from `a` on, as far as there are cells. -/
def Memory.place (m : Memory) (a : Nat) : List Byte → Memory
  | [] => m
  | b :: bs =>
    if a < Config.memSize then (m.write (BitVec.ofNat 8 a) b).place (a + 1) bs else m

end Sys2Proof.Machine
end

