-- ==== Sys2Proof/Machine/Step.lean ====
section
/-! DEFINITION. One step of the engine inside a RUN transaction (40_execution_engine.md R63, R64, R73), and where the
host stores an instruction that the next step is to run. -/

namespace Sys2Proof.Machine

/-- `Step()` (R64): fetch and decode, or raise; then the register check and the handler. -/
def engineStep (s : State) : Result :=
  match decode (fetch s.mem s.pc) with
  | .error e => .next (s.raise (decodeFault s.pc e))
  | .ok (i, _) => exec i s

/-- One pass of the loop of R63: a step happens only while `running = true` and `fault = none` (R73). Otherwise the loop
has ended, and the outcome says with which result RUN returns (R102; DEDUCED, safe, log entry 1). -/
def step (s : State) : Host.Outcome State Fault Refusal :=
  match s.status with
  | .running => engineStep s
  | .halted => .fault .halted
  | .faulted r => .fault (.latched r)

/-- `s` inside a RUN, with the table word's three bytes at `pc`, so that the next step runs that instruction. Only the
bytes that have cells are placed (log entry 8). -/
def State.withFetchWord (s : State) (nbits w : Nat) : State :=
  { s with mem := s.mem.place s.pc (tableBytes nbits w), running := true, fault := none }

end Sys2Proof.Machine
end

