-- ==== Sys2Proof/Machine/HostPort.lean ====
section
/-! DEFINITION. The block's transactions with its host: RESET, LOAD, RUN, OUT and SNAPSHOT (60_exceptions.md R101 to
R107; 70_reset_and_hazards.md R115 to R118). `Session` adds to the block's state the one thing the protocol needs and R31
does not list: whether a RUN is in progress. -/

namespace Sys2Proof.Machine

/-- The first line of RUN: `running <- true` and nothing else (R102, R117). -/
def State.beginRun (s : State) : State := s.setRunning true

/-- LOAD (R103): the image at ascending addresses from 0, other cells kept; an image longer than 256 bytes is refused
(none) and changes nothing. -/
def State.load? (s : State) (image : List Byte) : Option State :=
  if image.length ≤ Config.memSize then
    some { s with mem := s.mem.place Config.loadBase image }
  else none

/-- The reply of SNAPSHOT (R105): `bytes` are the cells at `pc`, `pc + 1`, `pc + 2`, none where absent. -/
structure Snapshot where
  pc    : Nat
  bytes : List (Option Byte)
  regs  : Vector Byte 8
  deriving DecidableEq, Repr

/-- SNAPSHOT (R105): a read-only view that raises no fault. -/
def State.snapshot (s : State) : Snapshot where
  pc := s.pc
  bytes := [s.mem.read? s.pc, s.mem.read? (s.pc + 1), s.mem.read? (s.pc + 2)]
  regs := s.regs

/-- What RUN returns (R101, R102). -/
inductive RunResult where
  | halted
  | faulted (r : FaultRecord)
  deriving DecidableEq, Repr

/-- The result with which the loop has ended, or none while a step can happen (R63, R102). -/
def State.runResult? (s : State) : Option RunResult :=
  match s.status with
  | .running => none
  | .halted => some .halted
  | .faulted r => some (.faulted r)

/-- The result that a stop of `step` stands for. -/
def Fault.runResult : Fault → RunResult
  | .halted => .halted
  | .latched r => .faulted r

/-- Decimal digits of a number below 1000, with no leading zeros. -/
def decimalDigits (n : Nat) : List Nat :=
  if n < 10 then [n]
  else if n < 100 then [n / 10, n % 10]
  else [n / 100, n / 10 % 10, n % 10]

/-- The sink's bytes for one output byte: decimal digits, then 0x0A (R104; log entry 10). -/
def renderOut (v : Byte) : List Byte :=
  (decimalDigits v.toNat).map (fun d => BitVec.ofNat 8 (0x30 + d)) ++ [0x0A#8]

/-- What the sink holds after the output history `out` (R104). -/
def sinkText (out : List Byte) : List Byte := out.flatMap renderOut

/-- The block and whether a RUN is in progress. DESIGN CHOICE, safe (log entry 2). -/
structure Session where
  block   : State
  runOpen : Bool
  deriving DecidableEq, Repr

/-- A freshly constructed engine: RESET, and no RUN in progress (R115, R116). -/
def Session.initial : Session := ⟨State.reset, false⟩

/-- The transactions the host can start (R101). -/
inductive HostMove where
  | reset
  | load (image : List Byte)
  | run
  | snapshot
  deriving DecidableEq, Repr

/-- What the host gets back at once. -/
inductive Reply where
  | done
  /-- LOAD of an image longer than 256 bytes (R103). -/
  | imageTooLong
  | snapshot (v : Snapshot)
  deriving DecidableEq, Repr

/-- A host transaction. During a RUN only SNAPSHOT is possible (R107), so the others are then no move (none; DEDUCED, safe, log entry 11); RUN starts
the loop, whose steps are `Session.tick`. -/
def Session.host (σ : Session) : HostMove → Option (Session × Reply)
  | .reset => if σ.runOpen then none else some (Session.initial, .done)
  | .load image =>
    if σ.runOpen then none
    else match σ.block.load? image with
      | some b => some ({ σ with block := b }, .done)
      | none => some (σ, .imageTooLong)
  | .run => if σ.runOpen then none else some ({ block := σ.block.beginRun, runOpen := true }, .done)
  | .snapshot => some (σ, .snapshot σ.block.snapshot)

/-- What the host sees of one pass of the engine's loop. -/
inductive EngineEvent where
  /-- A step happened; `sent` are the bytes of OUT (R104). -/
  | stepped (sent : List Byte)
  /-- The loop ended and RUN returned (R102). -/
  | returned (result : RunResult)
  deriving DecidableEq, Repr

/-- One pass of the loop inside a RUN (R63, R73, R102); none when no RUN is in progress. -/
def Session.tick (σ : Session) : Option (Session × EngineEvent) :=
  if σ.runOpen then
    match step σ.block with
    | .next t => some ({ σ with block := t }, .stepped (t.out.drop σ.block.out.length))
    | .fault f => some ({ σ with runOpen := false }, .returned f.runResult)
    | .refused _ => none
  else none

end Sys2Proof.Machine
end

