-- ==== Sys2Proof/Safety.lean ====
section
/-! DEFINITION. The terms in which statements speak of runs: live states, what stays the same, truthful fault records,
the machine's invariant, and the ways a RUN ends (60_exceptions.md R114). -/

namespace Sys2Proof.Machine

/-- A step can happen: `running = true` and `fault = none` (R63, R73). -/
abbrev State.Live (s : State) : Prop := s.running = true ∧ s.fault = none

/-- Every register but those of `ds` is as before. -/
abbrev SameRegsExcept (ds : List Reg) (s t : State) : Prop := ∀ r, r ∉ ds → t.reg r = s.reg r

/-- Every cell but those at `stored` reads as before. -/
abbrev SameCellsExcept (stored : List Addr) (s t : State) : Prop := ∀ a, a ∉ stored → t.cell a = s.cell a

/-- The running flag, the fault latch and the output history are as before. -/
abbrev SameControl (s t : State) : Prop := t.running = s.running ∧ t.fault = s.fault ∧ t.out = s.out

/-- The bytes `bs` stand at ascending addresses from `p` on, each in a cell (R38). -/
abbrev State.BytesAt (s : State) (p : Nat) (bs : List Byte) : Prop :=
  ∀ k (h : k < bs.length), s.mem.read? (p + k) = some bs[k]

/-- `i` raises `REGISTER_INDEX` for its operand `v`, with opcode byte `op` and operand bytes `ops`, and changes nothing but
the latch (R70, R93 to R95). -/
def RaisesRegisterIndex (i : Instr) (op : Byte) (ops : List Byte) (v : Byte) : Prop :=
  ∀ s : State,
    let record : FaultRecord :=
      { kind := .outOfBoundsAccess .registerIndex, pc := s.pc, opcode := some op, operands := ops, value := v.toNat }
    exec i s = .next { s with fault := some record }

/-- An instruction with opcode byte `op` and `n` operand bytes that does not fit below address 256 raises
`OPERAND_ADDRESS` with the operands fetched so far, and changes nothing but the latch (R69, R93 to R95). -/
def RaisesOperandAddress (op : Byte) (n : Nat) : Prop :=
  ∀ (s : State) (got : List Byte), s.Live → s.BytesAt s.pc (op :: got) → got.length < n →
    256 ≤ s.pc + 1 + got.length →
    let record : FaultRecord :=
      { kind := .outOfBoundsAccess .operandAddress, pc := s.pc, opcode := some op, operands := got,
        value := s.pc + 1 + got.length }
    step s = .next { s with fault := some record }

/-- A record that says of the state it was latched in what R93 and R94 say it says. `m` is the memory and `p` the program
counter at the fault. -/
def FaultRecord.Truthful (r : FaultRecord) (m : Memory) (p : Nat) : Prop :=
  r.pc = p ∧
  match r.kind with
  | .illegalInstruction =>
      ∃ op, m.read? p = some op ∧ Opcode.ofByte? op = none ∧
        r.opcode = some op ∧ r.operands = [] ∧ r.value = op.toNat
  | .unsupportedOperation => False
  | .outOfBoundsAccess .fetchAddress =>
      Config.memSize ≤ p ∧ r.opcode = none ∧ r.operands = [] ∧ r.value = p
  | .outOfBoundsAccess .operandAddress =>
      ∃ o : Opcode, m.read? p = some o.byte ∧ r.opcode = some o.byte ∧ r.operands.length < o.arity ∧
        (∀ k (h : k < r.operands.length), m.read? (p + 1 + k) = some r.operands[k]) ∧
        r.value = p + 1 + r.operands.length ∧ Config.memSize ≤ r.value
  | .outOfBoundsAccess .registerIndex =>
      ∃ i : Instr, (∀ k (h : k < (encode i).length), m.read? (p + k) = some (encode i)[k]) ∧
        r.opcode = some i.opcode.byte ∧ r.operands = i.operands ∧
        ∃ v ∈ i.regOperands, r.value = v.toNat ∧ Config.nregs ≤ v.toNat
  | .outOfBoundsAccess .returnAddress =>
      ∃ a : Byte, (∀ k (h : k < (encode (.call a)).length), m.read? (p + k) = some (encode (.call a))[k]) ∧
        a.toNat < Config.nregs ∧ r.opcode = some Opcode.call.byte ∧ r.operands = [a] ∧
        r.value = p + 2 ∧ Config.memSize ≤ p + 2

/-- The machine's invariant: memory in canonical form, `pc` at most 256 (R22), and a latched record that is true of the
state it stands in (R94, R95). -/
structure State.Inv (s : State) : Prop where
  mem_wf : s.mem.wf
  pc_le : s.pc ≤ Config.memSize
  latch : ∀ r, s.fault = some r → r.Truthful s.mem s.pc

/-- `RUN` issued in `s` ends in `t` with the result `res` (R102). -/
def RunReturns (s : State) (res : RunResult) (t : State) : Prop :=
  ∃ n, Sys2Proof.core.run n s.beginRun = .next t ∧ t.runResult? = some res

/-- `RUN` issued in `s` never returns: after any number of steps another one can happen (R74). -/
def RunNeverReturns (s : State) : Prop :=
  ∀ n, ∃ t, Sys2Proof.core.run n s.beginRun = .next t ∧ t.runResult? = none

/-! ### The block as the spec's pseudocode sees it

A second description, written straight from the pseudocode of R64 and R75 to R90 over arrays of naturals (R9), with no
instruction type, no decoder and no list memory. It is not the model; a statement says that the model agrees with it. -/

/-- The tuple of R31 with registers and memory as arrays of naturals. -/
structure Flat where
  x       : Nat → Nat
  pc      : Nat
  running : Bool
  fault   : Option FaultRecord
  mem     : Nat → Nat
  out     : List Nat

/-- What a state is as arrays. -/
def State.flat (s : State) : Flat where
  x := fun r => if h : r < 8 then (s.reg ⟨r, h⟩).toNat else 0
  pc := s.pc
  running := s.running
  fault := s.fault
  mem := fun a => (s.mem.lookup a).toNat
  out := s.out.map BitVec.toNat

/-- `x[i] <- v`. -/
def Flat.setX (f : Flat) (i v : Nat) : Flat :=
  { f with x := fun j => if j = i then v else f.x j }

/-- `MemWrite(a, 1, v)`. -/
def Flat.memWrite (f : Flat) (a v : Nat) : Flat :=
  { f with mem := fun b => if b = a then v else f.mem b }

/-- `raise`, with the opcode and operands as bytes of the record. -/
def Flat.raise (f : Flat) (kind : FaultKind) (op : Option Nat) (ops : List Nat) (value : Nat) : Flat :=
  let record : FaultRecord :=
    { kind, pc := f.pc, opcode := op.map (BitVec.ofNat 8), operands := ops.map (BitVec.ofNat 8), value }
  { f with fault := some record }

/-- `ARITY` and `REGOPS` of an opcode byte (R49, R50, R64), none when the byte is not in `OPCODES`. -/
def opcodeShape (op : Nat) : Option (Nat × List Nat) :=
  if op = 0x01 ∨ op = 0x11 then some (0, [])
  else if op = 0x47 ∨ op = 0x45 ∨ op = 0x46 ∨ op = 0x50 then some (1, [1])
  else if op = 0x82 then some (2, [1])
  else if op = 0xA0 ∨ op = 0x66 ∨ op = 0xA2 ∨ op = 0x84 then some (2, [1, 2])
  else none

/-- `HANDLER[op](p, A, B)`: R75 to R90 in the order of the table. `(v - 1) mod 256` is written `(v + 255) % 256` and
`(a - b) mod 256` is `(a + 256 - b) % 256`, for bytes the same numbers (R9). -/
def Flat.handler (f : Flat) (op A B : Nat) : Flat :=
  if op = 0x01 then { f with running := false, pc := f.pc + 1 }
  else if op = 0x47 then { f with out := f.out ++ [f.x A], pc := f.pc + 2 }
  else if op = 0x82 then { f.setX A B with pc := f.pc + 3 }
  else if op = 0x45 then
    let f1 := f.setX 7 ((f.x 7 + 255) % 256)
    { f1.memWrite (f1.x 7) (f1.x A) with pc := f.pc + 2 }
  else if op = 0x46 then
    let f1 := f.setX A (f.mem (f.x 7))
    { f1.setX 7 ((f1.x 7 + 1) % 256) with pc := f.pc + 2 }
  else if op = 0x50 then
    let ret := f.pc + 2
    if 256 ≤ ret then f.raise (.outOfBoundsAccess .returnAddress) (some op) [A] ret
    else
      let f1 := f.setX 7 ((f.x 7 + 255) % 256)
      { f1.memWrite (f1.x 7) ret with pc := f1.x A }
  else if op = 0x11 then { f.setX 7 ((f.x 7 + 1) % 256) with pc := f.mem (f.x 7) }
  else if op = 0xA0 then { f.setX A ((f.x A + f.x B) % 256) with pc := f.pc + 3 }
  else if op = 0x66 then { f.setX A ((f.x A + 256 - f.x B) % 256) with pc := f.pc + 3 }
  else if op = 0xA2 then { f.setX A ((f.x A * f.x B) % 256) with pc := f.pc + 3 }
  else { f.memWrite (f.x A) (f.x B) with pc := f.pc + 3 }

/-- `Step()` of R64 with its checks in the order of R96. -/
def Flat.step (f : Flat) : Flat :=
  let p := f.pc
  if 256 ≤ p then f.raise (.outOfBoundsAccess .fetchAddress) none [] p
  else
    let op := f.mem p
    match opcodeShape op with
    | none => f.raise .illegalInstruction (some op) [] op
    | some (n, regops) =>
      let A := f.mem (p + 1)
      let B := f.mem (p + 2)
      let ops := [A, B].take n
      if 1 ≤ n ∧ 256 ≤ p + 1 then
        f.raise (.outOfBoundsAccess .operandAddress) (some op) [] (p + 1)
      else if 2 ≤ n ∧ 256 ≤ p + 2 then
        f.raise (.outOfBoundsAccess .operandAddress) (some op) [A] (p + 2)
      else if 1 ∈ regops ∧ 8 ≤ A then
        f.raise (.outOfBoundsAccess .registerIndex) (some op) ops A
      else if 2 ∈ regops ∧ 8 ≤ B then
        f.raise (.outOfBoundsAccess .registerIndex) (some op) ops B
      else f.handler op A B

end Sys2Proof.Machine
end

