-- ==== Sys2Proof/Certificates/Slice0/Obligations.lean ====
section
/-! DEFINITION. The statements for the provers, each a rule of spec/ or something that follows from several rules. -/

open Sys2Proof Sys2Proof.Machine

/-! ### Encoding -/

/-- Bytes decode to an instruction with a rest exactly when they are that instruction's encoding followed by that rest. So
decoding an encoding gives the instruction back, with every operand at every value, and each byte sequence has one meaning
(30_encoding.md R48 to R57). -/
def Obligations.DecodeAndEncodeAgree : Prop :=
  ∀ (bs : List Byte) (i : Instr) (rest : List Byte), decode bs = .ok (i, rest) ↔ bs = encode i ++ rest

/-- Words written out from the table of R49 and the formats of R50. -/
def Obligations.TableWordsDecode : Prop :=
  decode [0b00000001#8] = .ok (.hlt, []) ∧
  decode [0b01000111#8, 0b00000011#8] = .ok (.prn 3, []) ∧
  decode [0b10000010#8, 0b00000101#8, 0b11111111#8] = .ok (.ldi 5 255, []) ∧
  decode [0b01000101#8, 0b00000111#8] = .ok (.push 7, []) ∧
  decode [0b01000110#8, 0b00000001#8] = .ok (.pop 1, []) ∧
  decode [0b01010000#8, 0b00000001#8] = .ok (.call 1, []) ∧
  decode [0b00010001#8] = .ok (.ret, []) ∧
  decode [0b10100000#8, 0b00000000#8, 0b00000001#8] = .ok (.add 0 1, []) ∧
  decode [0b01100110#8, 0b00000011#8, 0b00000010#8] = .ok (.sub 3 2, []) ∧
  decode [0b10100010#8, 0b00000000#8, 0b00000001#8] = .ok (.mul 0 1, []) ∧
  decode [0b10000100#8, 0b00000010#8, 0b00000000#8] = .ok (.st 2 0, []) ∧
  decode [0xA1#8, 0#8, 1#8] = .error (.illegalOpcode 0xA1#8)

/-- R51: the length comes from the opcode byte alone, as 1 plus its operand count, and is 1, 2 or 3; and a byte that is no
opcode of R49 has no length, since it is illegal. -/
def Obligations.LengthFromOpcodeByteAlone : Prop :=
  (∀ (op : Byte) (xs ys rest rest' : List Byte) (i j : Instr),
    decode (op :: xs) = .ok (i, rest) → decode (op :: ys) = .ok (j, rest') →
      i.opcode = j.opcode ∧ (encode i).length = (encode j).length ∧
      (op :: xs).length = (encode i).length + rest.length) ∧
  (∀ i : Instr, (encode i).length = 1 + i.operands.length ∧ (encode i).length ≤ 3) ∧
  (∀ (op : Byte) (xs : List Byte), (∀ i : Instr, (encode i).head? ≠ some op) →
    decode (op :: xs) = .error (.illegalOpcode op))

/-! ### Reset -/

/-- R20, and the other reset values of the table of R31. -/
def Obligations.ResetValues : Prop :=
  (∀ r : Reg, r.val < 7 → State.reset.reg r = 0) ∧ State.reset.reg 7 = 0xF4#8 ∧
  State.reset.pc = 0 ∧ State.reset.running = true ∧ State.reset.fault = none ∧
  (∀ a : Addr, State.reset.cell a = 0) ∧ State.reset.out = []

/-- The invariant holds after RESET (its clause on the memory's form is the model's own, DESIGN CHOICE, log entry 4). -/
def Obligations.ResetMeetsTheInvariant : Prop := State.reset.Inv

/-! ### Memory -/

/-- R33: after any sequence of writes, a read gives the byte most recently written to that cell, or what the cell held
before if none was. That the memory has a canonical form, and stays in it, is the model's own (DESIGN CHOICE, log entry 4). -/
def Obligations.ReadGivesTheLastByteWritten : Prop :=
  ∀ (m : Memory) (ws : List (Addr × Byte)) (a : Addr), m.wf →
    let m' := ws.foldl (fun n w => n.write w.1 w.2) m
    m'.wf ∧
    ((∀ w ∈ ws, w.1 ≠ a) → m'.read a = m.read a) ∧
    (∀ (before after : List (Addr × Byte)) (v : Byte),
      ws = before ++ (a, v) :: after → (∀ w ∈ after, w.1 ≠ a) → m'.read a = v)

/-- Memories in canonical form that read alike at every address are the same data (the form is the
model's choice, log entry 4). -/
def Obligations.MemoriesThatReadAlikeAreEqual : Prop :=
  ∀ m m' : Memory, m.wf → m'.wf → (∀ a : Addr, m.read a = m'.read a) → m = m'

/-! ### One statement for each instruction rule

Each says: the encoding; that the instruction completes with the rule's effect and its frame, for every state and every
operand that names a register; which fault the other operands raise, `A` before `B`; and the fault of an instruction that
does not fit below address 256. The faults are those of the rule's Exceptions; their records and their order are the spec's
decisions D2, D4, D10 and D11. -/

/-- R75. HLT completes in every state; the loop then ends and RUN returns `Halted`; a later RUN resumes at `p + 1`; and
after an HLT at address 255 a later RUN faults at fetch. HLT's advance of `pc` is the spec's decision D7, RUN's effect D8;
that `step` answers `.fault .halted` where no step happens is the model's own (DEDUCED, log entry 1). -/
def Obligations.HltFollowsItsRule : Prop :=
  (encode .hlt = [0x01#8] ∧ decode [0x01#8] = .ok (.hlt, [])) ∧
  (∀ s : State, ∃ t, exec .hlt s = .next t ∧ t.running = false ∧ t.pc = s.pc + 1 ∧
    SameRegsExcept [] s t ∧ SameCellsExcept [] s t ∧ t.fault = s.fault ∧ t.out = s.out ∧
    (s.fault = none → step t = .fault .halted ∧ t.runResult? = some .halted) ∧
    (t.beginRun.Live ↔ s.fault = none) ∧ t.beginRun.pc = s.pc + 1 ∧
    (s.fault = none → s.pc = 255 →
      let record : FaultRecord :=
        { kind := .outOfBoundsAccess .fetchAddress, pc := 256, opcode := none, operands := [], value := 256 }
      step t.beginRun = .next { t.beginRun with fault := some record }))

/-- R76. PRN sends `x[A]`, which the sink prints in decimal, and changes no register and no cell; and LDI of `v` followed
by PRN of the same register emits exactly `v`. The sink's bytes are not R76's: the digits' ASCII codes are the model's own
(PRESUMED, log entry 10), and decimal with the line break 0x0A is the spec's decision D15. -/
def Obligations.PrnFollowsItsRule : Prop :=
  (∀ a : Byte, encode (.prn a) = [0x47#8, a] ∧ decode [0x47#8, a] = .ok (.prn a, [])) ∧
  (∀ (s : State) (a : Byte) (ra : Reg), a.toNat = ra.val →
    ∃ t, exec (.prn a) s = .next t ∧ t.out = s.out ++ [s.reg ra] ∧ t.pc = s.pc + 2 ∧
      sinkText t.out = sinkText s.out ++ renderOut (s.reg ra) ∧
      SameRegsExcept [] s t ∧ SameCellsExcept [] s t ∧ t.running = s.running ∧ t.fault = s.fault) ∧
  (∀ a : Byte, 8 ≤ a.toNat → RaisesRegisterIndex (.prn a) 0x47#8 [a] a) ∧
  RaisesOperandAddress 0x47#8 1 ∧
  (renderOut 0 = [0x30#8, 0x0A#8] ∧ renderOut 255 = [0x32#8, 0x35#8, 0x35#8, 0x0A#8]) ∧
  (∀ (s : State) (a v : Byte), a.toNat < 8 →
    ∃ t u, exec (.ldi a v) s = .next t ∧ exec (.prn a) t = .next u ∧ u.out = s.out ++ [v])

/-- R77. LDI writes the immediate to `x[A]`, whatever its value; after an LDI at address 253 the next fetch faults. -/
def Obligations.LdiFollowsItsRule : Prop :=
  (∀ a imm : Byte, encode (.ldi a imm) = [0x82#8, a, imm] ∧ decode [0x82#8, a, imm] = .ok (.ldi a imm, [])) ∧
  (∀ (s : State) (a imm : Byte) (ra : Reg), a.toNat = ra.val →
    ∃ t, exec (.ldi a imm) s = .next t ∧ t.reg ra = imm ∧ t.pc = s.pc + 3 ∧
      SameRegsExcept [ra] s t ∧ SameCellsExcept [] s t ∧ SameControl s t ∧
      (s.Live → s.pc = 253 →
        let record : FaultRecord :=
          { kind := .outOfBoundsAccess .fetchAddress, pc := 256, opcode := none, operands := [], value := 256 }
        step t = .next { t with fault := some record })) ∧
  (∀ a imm : Byte, 8 ≤ a.toNat → RaisesRegisterIndex (.ldi a imm) 0x82#8 [a, imm] a) ∧
  RaisesOperandAddress 0x82#8 2

/-- R78. ST stores `x[B]` at the address in `x[A]`; wherever that address is, its own bytes included, a step with ST's
bytes at `pc` does just that, and a later fetch of that cell gets the stored byte. -/
def Obligations.StFollowsItsRule : Prop :=
  (∀ a b : Byte, encode (.st a b) = [0x84#8, a, b] ∧ decode [0x84#8, a, b] = .ok (.st a b, [])) ∧
  (∀ (s : State) (a b : Byte) (ra rb : Reg), s.mem.wf → a.toNat = ra.val → b.toNat = rb.val →
    ∃ t, exec (.st a b) s = .next t ∧ t.cell (s.reg ra) = s.reg rb ∧ t.pc = s.pc + 3 ∧
      SameRegsExcept [] s t ∧ SameCellsExcept [s.reg ra] s t ∧ SameControl s t ∧
      (s.Live → s.BytesAt s.pc [0x84#8, a, b] → step s = .next t) ∧
      t.mem.read? (s.reg ra).toNat = some (s.reg rb)) ∧
  (∀ a b : Byte, 8 ≤ a.toNat → RaisesRegisterIndex (.st a b) 0x84#8 [a, b] a) ∧
  (∀ a b : Byte, a.toNat < 8 → 8 ≤ b.toNat → RaisesRegisterIndex (.st a b) 0x84#8 [a, b] b) ∧
  RaisesOperandAddress 0x84#8 2

/-- R81. PUSH decrements SP modulo 256 and stores `x[A]`, read after that, at the new SP; so PUSH R7 stores the
decremented SP (the order is the spec's decision D14). -/
def Obligations.PushFollowsItsRule : Prop :=
  (∀ a : Byte, encode (.push a) = [0x45#8, a] ∧ decode [0x45#8, a] = .ok (.push a, [])) ∧
  (∀ (s : State) (a : Byte) (ra : Reg), s.mem.wf → a.toNat = ra.val →
    ∃ t, exec (.push a) s = .next t ∧ t.sp.toNat = (s.sp.toNat + 255) % 256 ∧ t.sp = s.decSp.sp ∧
      t.cell s.decSp.sp = (if ra = 7 then s.decSp.sp else s.reg ra) ∧ t.pc = s.pc + 2 ∧
      SameRegsExcept [7] s t ∧ SameCellsExcept [s.decSp.sp] s t ∧ SameControl s t) ∧
  (∀ a : Byte, 8 ≤ a.toNat → RaisesRegisterIndex (.push a) 0x45#8 [a] a) ∧
  RaisesOperandAddress 0x45#8 1

/-- R82. POP writes the byte at SP to `x[A]` and then increments SP modulo 256; so POP R7 leaves the popped byte plus
one (the order is the spec's decision D14). -/
def Obligations.PopFollowsItsRule : Prop :=
  (∀ a : Byte, encode (.pop a) = [0x46#8, a] ∧ decode [0x46#8, a] = .ok (.pop a, [])) ∧
  (∀ (s : State) (a : Byte) (ra : Reg), a.toNat = ra.val →
    ∃ t, exec (.pop a) s = .next t ∧
      (ra ≠ 7 → t.reg ra = s.cell s.sp ∧ t.sp.toNat = (s.sp.toNat + 1) % 256) ∧
      (ra = 7 → t.sp.toNat = ((s.cell s.sp).toNat + 1) % 256) ∧ t.pc = s.pc + 2 ∧
      SameRegsExcept [ra, 7] s t ∧ SameCellsExcept [] s t ∧ SameControl s t) ∧
  (∀ a : Byte, 8 ≤ a.toNat → RaisesRegisterIndex (.pop a) 0x46#8 [a] a) ∧
  RaisesOperandAddress 0x46#8 1

/-- R83. CALL decrements SP, stores the return address at the new SP and jumps to `x[A]`, read after the SP write; a return
address of 256 or more raises `RETURN_ADDRESS` before any write (the spec's decisions D14 and D5). The last clause is about `exec` at every
such `pc`: at 254 it is D5's case, and at 255 or more, where `step` raises a fetch fault first and never reaches `exec`, it is
the model's own (DEDUCED, log entry 12). -/
def Obligations.CallFollowsItsRule : Prop :=
  (∀ a : Byte, encode (.call a) = [0x50#8, a] ∧ decode [0x50#8, a] = .ok (.call a, [])) ∧
  (∀ (s : State) (a : Byte) (ra : Reg), s.mem.wf → a.toNat = ra.val → s.pc + 2 < 256 →
    ∃ t, exec (.call a) s = .next t ∧ t.sp.toNat = (s.sp.toNat + 255) % 256 ∧ t.sp = s.decSp.sp ∧
      (t.cell s.decSp.sp).toNat = s.pc + 2 ∧
      t.pc = (if ra = 7 then s.decSp.sp else s.reg ra).toNat ∧
      SameRegsExcept [7] s t ∧ SameCellsExcept [s.decSp.sp] s t ∧ SameControl s t) ∧
  (∀ a : Byte, 8 ≤ a.toNat → RaisesRegisterIndex (.call a) 0x50#8 [a] a) ∧
  RaisesOperandAddress 0x50#8 1 ∧
  (∀ (s : State) (a : Byte), a.toNat < 8 → 256 ≤ s.pc + 2 →
    let record : FaultRecord :=
      { kind := .outOfBoundsAccess .returnAddress, pc := s.pc, opcode := some 0x50#8, operands := [a],
        value := s.pc + 2 }
    exec (.call a) s = .next { s with fault := some record })

/-- R84. RET jumps to the byte at SP and increments SP modulo 256, whatever pushed that byte; after RESET it goes to address
0 with SP at 0xF5; and a RET after a CALL resumes at the instruction after the CALL, with SP and every other register as
before the CALL. -/
def Obligations.RetFollowsItsRule : Prop :=
  (encode .ret = [0x11#8] ∧ decode [0x11#8] = .ok (.ret, [])) ∧
  (∀ s : State, ∃ t, exec .ret s = .next t ∧ t.pc = (s.cell s.sp).toNat ∧
    t.sp.toNat = (s.sp.toNat + 1) % 256 ∧
    SameRegsExcept [7] s t ∧ SameCellsExcept [] s t ∧ SameControl s t) ∧
  (∃ t, exec .ret State.reset = .next t ∧ t.pc = 0 ∧ t.sp = 0xF5#8) ∧
  (∀ (s : State) (a : Byte), s.mem.wf → a.toNat < 8 → s.pc + 2 < 256 →
    ∃ t u, exec (.call a) s = .next t ∧ exec .ret t = .next u ∧
      u.pc = s.pc + 2 ∧ SameRegsExcept [] s u ∧ SameCellsExcept [s.decSp.sp] s u ∧ SameControl s u)

/-- R88. ADD: `x[A] <- (x[A] + x[B]) mod 256`. -/
def Obligations.AddFollowsItsRule : Prop :=
  (∀ a b : Byte, encode (.add a b) = [0xA0#8, a, b] ∧ decode [0xA0#8, a, b] = .ok (.add a b, [])) ∧
  (∀ (s : State) (a b : Byte) (ra rb : Reg), a.toNat = ra.val → b.toNat = rb.val →
    ∃ t, exec (.add a b) s = .next t ∧
      (t.reg ra).toNat = ((s.reg ra).toNat + (s.reg rb).toNat) % 256 ∧ t.pc = s.pc + 3 ∧
      SameRegsExcept [ra] s t ∧ SameCellsExcept [] s t ∧ SameControl s t) ∧
  (∀ a b : Byte, 8 ≤ a.toNat → RaisesRegisterIndex (.add a b) 0xA0#8 [a, b] a) ∧
  (∀ a b : Byte, a.toNat < 8 → 8 ≤ b.toNat → RaisesRegisterIndex (.add a b) 0xA0#8 [a, b] b) ∧
  RaisesOperandAddress 0xA0#8 2

/-- R89. SUB: `x[A] <- (x[A] - x[B]) mod 256`, over the integers (R9); two operands by the spec's decision D13. -/
def Obligations.SubFollowsItsRule : Prop :=
  (∀ a b : Byte, encode (.sub a b) = [0x66#8, a, b] ∧ decode [0x66#8, a, b] = .ok (.sub a b, [])) ∧
  (∀ (s : State) (a b : Byte) (ra rb : Reg), a.toNat = ra.val → b.toNat = rb.val →
    ∃ t, exec (.sub a b) s = .next t ∧
      ((t.reg ra).toNat : Int) = ((s.reg ra).toNat - (s.reg rb).toNat : Int) % 256 ∧ t.pc = s.pc + 3 ∧
      SameRegsExcept [ra] s t ∧ SameCellsExcept [] s t ∧ SameControl s t) ∧
  (∀ a b : Byte, 8 ≤ a.toNat → RaisesRegisterIndex (.sub a b) 0x66#8 [a, b] a) ∧
  (∀ a b : Byte, a.toNat < 8 → 8 ≤ b.toNat → RaisesRegisterIndex (.sub a b) 0x66#8 [a, b] b) ∧
  RaisesOperandAddress 0x66#8 2

/-- R90. MUL: `x[A] <- (x[A] * x[B]) mod 256`. -/
def Obligations.MulFollowsItsRule : Prop :=
  (∀ a b : Byte, encode (.mul a b) = [0xA2#8, a, b] ∧ decode [0xA2#8, a, b] = .ok (.mul a b, [])) ∧
  (∀ (s : State) (a b : Byte) (ra rb : Reg), a.toNat = ra.val → b.toNat = rb.val →
    ∃ t, exec (.mul a b) s = .next t ∧
      (t.reg ra).toNat = ((s.reg ra).toNat * (s.reg rb).toNat) % 256 ∧ t.pc = s.pc + 3 ∧
      SameRegsExcept [ra] s t ∧ SameCellsExcept [] s t ∧ SameControl s t) ∧
  (∀ a b : Byte, 8 ≤ a.toNat → RaisesRegisterIndex (.mul a b) 0xA2#8 [a, b] a) ∧
  (∀ a b : Byte, a.toNat < 8 → 8 ≤ b.toNat → RaisesRegisterIndex (.mul a b) 0xA2#8 [a, b] b) ∧
  RaisesOperandAddress 0xA2#8 2

/-! ### The step -/

/-- When the bytes at `pc` are those of an instruction, a live state's step is that instruction's `exec` at that state:
fetch adds nothing, and `pc` still holds the instruction's address (R64, R72). -/
def Obligations.StepRunsTheInstructionAtPc : Prop :=
  ∀ (s : State) (i : Instr), s.Live → s.BytesAt s.pc (encode i) → step s = exec i s

/-- R26: the status is derived from the running flag and the latch, and a step happens exactly in Running and only inside a
RUN; it then always has a next state, so no instruction, operand or address stops the model. What `step`
answers, a next state in Running and `.fault` with RUN's result elsewhere, is the model's own (DEDUCED, log entry 1), and so is
that the RUN in progress is held in `Session` (DESIGN CHOICE, log entry 2). -/
def Obligations.EveryRunningStateSteps : Prop :=
  ∀ s : State, (s.status = .running ↔ ∃ t, step s = .next t) ∧
    (s.status = .running ↔ s.running = true ∧ s.fault = none) ∧
    (s.status = .halted ↔ s.running = false ∧ s.fault = none) ∧
    (∀ r, s.status = .faulted r ↔ s.fault = some r) ∧
    (s.status = .halted → step s = .fault .halted) ∧
    (∀ r, s.status = .faulted r → step s = .fault (.latched r)) ∧
    (Session.mk s false).tick = none

/-- R64 with every handler and R96: the model's step agrees with the spec's pseudocode over arrays of naturals, on the
whole state, faults and their order included (the order is the spec's decision D11). -/
def Obligations.StepRefinesThePseudocode : Prop :=
  ∀ s : State, s.mem.wf → s.Live → ∃ t, step s = .next t ∧ t.flat = s.flat.step

/-- Every step keeps the invariant: memory in canonical form, `pc` at most 256, and a latched record that is true of the
state it was raised in (R22, R36, R93 to R95). The memory's form is the model's own (DESIGN CHOICE, log entry 4). -/
def Obligations.EveryStepKeepsTheInvariant : Prop :=
  ∀ s t : State, s.Inv → step s = .next t → t.Inv

/-- R22: how each instruction that completes changes `pc`, and that `pc` never leaves 0 to 256 (the spec's decisions D3 and
D7). -/
def Obligations.PcAfterEachInstruction : Prop :=
  ∀ (s t : State) (i : Instr), step s = .next t → t.fault = none → s.BytesAt s.pc (encode i) →
    t.pc ≤ 256 ∧
    match i with
    | .hlt => t.pc = s.pc + 1
    | .prn _ | .push _ | .pop _ => t.pc = s.pc + 2
    | .ldi _ _ | .add _ _ | .sub _ _ | .mul _ _ | .st _ _ => t.pc = s.pc + 3
    | .call a => ∃ ra : Reg, a.toNat = ra.val ∧ t.pc = (s.decSp.reg ra).toNat
    | .ret => t.pc = (s.cell s.sp).toNat

/-- R24: the running flag is true after RESET and for each RUN; HLT clears it, and no other instruction and no fault writes
it; no instruction reads it, and a false flag ends the loop; that `step` then answers `.fault .halted` is the model's own
(DEDUCED, log entry 1). -/
def Obligations.OnlyHltClearsRunning : Prop :=
  State.reset.running = true ∧ (∀ s : State, s.beginRun.running = true) ∧
  (∀ s t : State, step s = .next t →
    (t.running = false ↔ s.mem.read? s.pc = some 0x01#8) ∧
    (s.mem.read? s.pc ≠ some 0x01#8 → t.running = s.running)) ∧
  (∀ (i : Instr) (s t : State) (b : Bool), exec i s = .next t →
    exec i { s with running := b } = .next { t with running := if i = .hlt then false else b }) ∧
  (∀ s : State, s.fault = none → s.running = false → step s = .fault .halted)

/-- R27: after RESET the output history is empty; only PRN appends, one byte; and no step reads it, so putting other bytes
before it changes nothing else (the history is the spec's decision D15). -/
def Obligations.OutputIsOnlyAppendedAndNeverRead : Prop :=
  State.reset.out = [] ∧
  (∀ s t : State, step s = .next t →
    t.out = s.out ∨ (s.mem.read? s.pc = some 0x47#8 ∧ ∃ v, t.out = s.out ++ [v])) ∧
  (∀ (s t : State) (earlier : List Byte), step s = .next t →
    step { s with out := earlier ++ s.out } = .next { t with out := earlier ++ t.out })

/-- A step changes only the cell that PUSH, CALL or ST stores to, at the address its rule gives (R34, the column
"writes"). -/
def Obligations.OnlyPushCallAndStWriteMemory : Prop :=
  ∀ (s t : State) (a : Addr), s.mem.wf → step s = .next t → t.cell a ≠ s.cell a →
    ((s.mem.read? s.pc = some 0x45#8 ∨ s.mem.read? s.pc = some 0x50#8) ∧ a = s.decSp.sp) ∨
    (∃ (b c : Byte) (ra : Reg), s.BytesAt s.pc (encode (.st b c)) ∧ b.toNat = ra.val ∧ a = s.reg ra)

/-- A step depends only on the cells it reads (R34, the column "reads"; R68): two states that differ in one cell, which is
neither a fetched byte nor the byte a POP or RET reads, step alike and still differ in no other cell (which bytes are
fetched is the spec's decision D12). -/
def Obligations.StepReadsOnlyTheListedCells : Prop :=
  ∀ (s : State) (c : Addr) (v : Byte), s.mem.wf → s.Live →
    (∀ k, k < (fetch s.mem s.pc).length → c.toNat ≠ s.pc + k) →
    ((s.mem.read? s.pc = some 0x46#8 ∨ s.mem.read? s.pc = some 0x11#8) → c ≠ s.sp) →
    ∃ t t', step s = .next t ∧ step (s.store c v) = .next t' ∧
      t'.regs = t.regs ∧ t'.pc = t.pc ∧ SameControl t t' ∧ SameCellsExcept [c] t t'

/-- A store is seen by the very next fetch (R45, R121): when PUSH, CALL or ST writes the cell at the next `pc`, the opcode
fetched there is the byte just written (the spec's decision D17). -/
def Obligations.NextFetchSeesTheStore : Prop :=
  (∀ (s t : State) (a b : Byte) (ra rb : Reg), s.mem.wf → a.toNat = ra.val → b.toNat = rb.val →
    exec (.st a b) s = .next t → t.pc = (s.reg ra).toNat → (fetch t.mem t.pc).head? = some (s.reg rb)) ∧
  (∀ (s t : State) (a : Byte) (ra : Reg), s.mem.wf → a.toNat = ra.val →
    exec (.push a) s = .next t → t.pc = s.decSp.sp.toNat → (fetch t.mem t.pc).head? = some (s.decSp.reg ra)) ∧
  (∀ (s t : State) (a : Byte) (ra : Reg), s.mem.wf → a.toNat = ra.val → s.pc + 2 < 256 →
    exec (.call a) s = .next t → t.pc = s.decSp.sp.toNat →
      (fetch t.mem t.pc).head? = some (BitVec.ofNat 8 (s.pc + 2)))

/-! ### Stack, calls and output together -/

/-- R80: for every SP, a push decrements it modulo 256 and then writes at the new SP, and a pop reads at SP and then
increments it modulo 256, with no fault at either end; after RESET the first push writes address 0xF3 (the spec's
decision D6). -/
def Obligations.StackPointerWrapsWithoutFault : Prop :=
  (∀ (s t : State) (a : Byte) (ra : Reg), s.mem.wf → a.toNat = ra.val → exec (.push a) s = .next t →
    t.sp.toNat = (s.sp.toNat + 255) % 256 ∧ t.cell t.sp = s.decSp.reg ra ∧ t.fault = s.fault) ∧
  (∀ (s t : State) (a : Byte) (ra : Reg), s.mem.wf → a.toNat = ra.val → s.pc + 2 < 256 → exec (.call a) s = .next t →
    t.sp.toNat = (s.sp.toNat + 255) % 256 ∧ (t.cell t.sp).toNat = s.pc + 2 ∧ t.fault = s.fault) ∧
  (∀ (s t : State) (a : Byte) (ra : Reg), a.toNat = ra.val → ra ≠ 7 → exec (.pop a) s = .next t →
    t.reg ra = s.cell s.sp ∧ t.sp.toNat = (s.sp.toNat + 1) % 256 ∧ t.fault = s.fault) ∧
  (∀ (s t : State) (a : Byte), a.toNat = 7 → exec (.pop a) s = .next t →
    t.sp.toNat = ((s.cell s.sp).toNat + 1) % 256 ∧ t.fault = s.fault) ∧
  (∀ s t : State, exec .ret s = .next t →
    t.pc = (s.cell s.sp).toNat ∧ t.sp.toNat = (s.sp.toNat + 1) % 256 ∧ t.fault = s.fault) ∧
  State.reset.decSp.sp = 0xF3#8

/-- "For all registers r, values v: PUSH r; POP r leaves reg[r] == v and SP unchanged", R7 included (R82), and all other
registers, flags and output as well (the spec's decision D14). -/
def Obligations.PopAfterPushRestoresTheRegisters : Prop :=
  ∀ (s : State) (a : Byte), s.mem.wf → a.toNat < 8 →
    ∃ t u, exec (.push a) s = .next t ∧ exec (.pop a) t = .next u ∧
      SameRegsExcept [] s u ∧ SameCellsExcept [s.decSp.sp] s u ∧ SameControl s u ∧ u.pc = s.pc + 4

/-! ### Faults -/

/-- R55 and R66: each of the 245 bytes outside the table raises `IllegalInstruction` with `pc` and the opcode when fetched,
and no operand byte is fetched; and a byte of the table never does (the record's layout is the
spec's decision D10). -/
def Obligations.EveryOtherOpcodeByteIsIllegal : Prop :=
  ∀ (s : State) (op : Byte), s.Live → s.mem.read? s.pc = some op →
    ((op.toNat = 0x00 ∨ (0x02 ≤ op.toNat ∧ op.toNat ≤ 0x10) ∨ (0x12 ≤ op.toNat ∧ op.toNat ≤ 0x44) ∨
        (0x48 ≤ op.toNat ∧ op.toNat ≤ 0x4F) ∨ (0x51 ≤ op.toNat ∧ op.toNat ≤ 0x65) ∨
        (0x67 ≤ op.toNat ∧ op.toNat ≤ 0x81) ∨ op.toNat = 0x83 ∨ (0x85 ≤ op.toNat ∧ op.toNat ≤ 0x9F) ∨
        op.toNat = 0xA1 ∨ 0xA3 ≤ op.toNat) →
      let record : FaultRecord :=
        { kind := .illegalInstruction, pc := s.pc, opcode := some op, operands := [], value := op.toNat }
      step s = .next { s with fault := some record } ∧ fetch s.mem s.pc = [op]) ∧
    (op ∈ [0x01#8, 0x47#8, 0x82#8, 0x45#8, 0x46#8, 0x50#8, 0x11#8, 0xA0#8, 0x66#8, 0xA2#8, 0x84#8] →
      ∀ (t : State) (r : FaultRecord), step s = .next t → t.fault = some r → r.kind ≠ .illegalInstruction)

/-- R65: fetch reads the byte at `pc`; with `pc` at 256 or more it raises `FETCH_ADDRESS` with that `pc` and no opcode
(the spec's decision D2). -/
def Obligations.FetchBeyondMemoryFaults : Prop :=
  ∀ s : State, s.Live →
    (s.pc < 256 → (fetch s.mem s.pc).head? = some (s.cell (BitVec.ofNat 8 s.pc))) ∧
    (256 ≤ s.pc →
      let record : FaultRecord :=
        { kind := .outOfBoundsAccess .fetchAddress, pc := s.pc, opcode := none, operands := [], value := s.pc }
      step s = .next { s with fault := some record })

/-- R69: an instruction whose next operand byte would lie at 256 or more raises `OPERAND_ADDRESS` with the operand bytes
already fetched and that address; the two examples of the rule (the spec's decision D2). -/
def Obligations.OperandBeyondMemoryFaults : Prop :=
  (∀ o : Opcode, RaisesOperandAddress o.byte o.arity) ∧
  (∀ s : State, s.Live → s.pc = 255 → s.mem.read? 255 = some 0x47#8 →
    let record : FaultRecord :=
      { kind := .outOfBoundsAccess .operandAddress, pc := 255, opcode := some 0x47#8, operands := [], value := 256 }
    step s = .next { s with fault := some record }) ∧
  (∀ (s : State) (b : Byte), s.Live → s.pc = 254 → s.mem.read? 254 = some 0x82#8 → s.mem.read? 255 = some b →
    let record : FaultRecord :=
      { kind := .outOfBoundsAccess .operandAddress, pc := 254, opcode := some 0x82#8, operands := [b], value := 256 }
    step s = .next { s with fault := some record })

/-- R70: with all operands fetched, the first register operand of 8 or more, `A` before `B`, raises `REGISTER_INDEX`; the
positions are those of R64, so LDI's immediate is never checked; and a well-formed instruction never raises it
(the spec's decision D4; that `exec` makes the check is DEDUCED, log entry 7). -/
def Obligations.RegisterIndexIsChecked : Prop :=
  (∀ (s : State) (i : Instr) (v : Byte), s.Live → s.BytesAt s.pc (encode i) →
    i.regOperands.find? (fun r => 8 ≤ r.toNat) = some v →
    let record : FaultRecord :=
      { kind := .outOfBoundsAccess .registerIndex, pc := s.pc, opcode := some i.opcode.byte, operands := i.operands,
        value := v.toNat }
    step s = .next { s with fault := some record }) ∧
  (∀ a imm : Byte, (Instr.ldi a imm).regOperands = [a]) ∧
  (∀ (s t : State) (i : Instr) (r : FaultRecord), s.fault = none → i.WellFormed → exec i s = .next t →
    t.fault = some r → r.kind ≠ .outOfBoundsAccess .registerIndex)

/-- R95: a step that raises changes nothing but the latch; `pc` keeps the faulting instruction's address; the loop then
stops and RUN returns the record (the spec's decision D9). That `step` then answers `.fault (.latched r)` is the model's own
(DEDUCED, log entry 1). -/
def Obligations.FaultsArePrecise : Prop :=
  ∀ (s t : State) (r : FaultRecord), step s = .next t → t.fault = some r →
    t = { s with fault := some r } ∧ r.pc = s.pc ∧ step t = .fault (.latched r) ∧
    t.runResult? = some (.faulted r)

/-- No step of the block raises `UnsupportedOperation` (R87, 90_conflicts.md C5). -/
def Obligations.UnsupportedOperationIsNeverRaised : Prop :=
  ∀ (s t : State) (r : FaultRecord), step s = .next t → t.fault = some r → r.kind ≠ .unsupportedOperation

/-- R86: the ALU's three operations are the exact results modulo 256, and each arithmetic handler performs
`x[A] <- alu(op, x[A], x[B])` and, besides advancing `pc`, changes nothing else. -/
def Obligations.AluIsExactModulo256AndInPlace : Prop :=
  (∀ a b : Byte, (alu .add a b).toNat = (a.toNat + b.toNat) % 256 ∧
    ((alu .sub a b).toNat : Int) = (a.toNat - b.toNat : Int) % 256 ∧
    (alu .mul a b).toNat = (a.toNat * b.toNat) % 256) ∧
  (∀ (s : State) (a b : Byte) (ra rb : Reg) (op : AluOp), a.toNat = ra.val → b.toNat = rb.val →
    ∃ t, exec (match op with | .add => .add a b | .sub => .sub a b | .mul => .mul a b) s = .next t ∧
      t.reg ra = alu op (s.reg ra) (s.reg rb) ∧ t.pc = s.pc + 3 ∧
      SameRegsExcept [ra] s t ∧ SameCellsExcept [] s t ∧ SameControl s t)

/-- R93: the numeric codes and sub-kinds of the records (the spec's decision D10). -/
def Obligations.FaultCodesAreTheListedOnes : Prop :=
  (FaultKind.illegalInstruction.code = 1 ∧ FaultKind.illegalInstruction.sub? = none) ∧
  (FaultKind.unsupportedOperation.code = 2 ∧ FaultKind.unsupportedOperation.sub? = none) ∧
  (∀ k, (FaultKind.outOfBoundsAccess k).code = 3) ∧
  (FaultKind.outOfBoundsAccess .fetchAddress).sub? = some 0 ∧
  (FaultKind.outOfBoundsAccess .operandAddress).sub? = some 1 ∧
  (FaultKind.outOfBoundsAccess .registerIndex).sub? = some 2 ∧
  (FaultKind.outOfBoundsAccess .returnAddress).sub? = some 3

/-- R98: while a record is latched no instruction executes; a RUN then sets `running`, executes nothing and returns the same
record; and of the engine's steps and the host's transactions only RESET clears the latch (the spec's decision D9). That `step` answers
`.fault (.latched r)` is the model's own (DEDUCED, log entry 1), and so is the RUN in progress in `Session` (DESIGN CHOICE, log
entry 2). -/
def Obligations.OnlyResetClearsTheLatch : Prop :=
  (∀ (s : State) (r : FaultRecord), s.fault = some r →
    step s = .fault (.latched r) ∧ s.beginRun.running = true ∧ s.beginRun.fault = some r ∧
    (∀ res t, RunReturns s res t ↔ res = .faulted r ∧ t = s.beginRun)) ∧
  (∀ (σ σ' : Session) (m : HostMove) (reply : Reply) (r : FaultRecord), σ.block.fault = some r →
    σ.host m = some (σ', reply) → m ≠ .reset → σ'.block.fault = some r) ∧
  (∀ (σ σ' : Session) (e : EngineEvent) (r : FaultRecord), σ.block.fault = some r →
    σ.tick = some (σ', e) → σ'.block = σ.block ∧ e = .returned (.faulted r)) ∧
  (∀ (σ : Session), σ.runOpen = false → σ.host .reset = some (Session.initial, .done) ∧
    Session.initial.block.fault = none)

/-! ### Host transactions and runs -/

/-- R117: RUN sets `running` and nothing else, so a RUN after a `Halted` one resumes at the `pc` that HLT left (the spec's
decision D8). -/
def Obligations.RunSetsOnlyRunning : Prop :=
  ∀ s : State, s.beginRun.running = true ∧ s.beginRun.pc = s.pc ∧ s.beginRun.regs = s.regs ∧
    s.beginRun.mem = s.mem ∧ s.beginRun.out = s.out ∧ s.beginRun.fault = s.fault

/-- R103: LOAD places an image of at most 256 bytes at ascending addresses from 0 and keeps every other cell and all other
state; a longer image is refused and changes nothing; and LOAD is accepted only when no RUN is in progress (the
spec's decision D20; the answers none and `.imageTooLong` are the model's own, DEDUCED, log entry 11). -/
def Obligations.LoadPlacesTheImage : Prop :=
  (∀ (s : State) (image : List Byte), s.mem.wf → image.length ≤ 256 →
    ∃ t, s.load? image = some t ∧
      (∀ (a : Addr) (h : a.toNat < image.length), t.cell a = image[a.toNat]) ∧
      (∀ a : Addr, image.length ≤ a.toNat → t.cell a = s.cell a) ∧
      t.regs = s.regs ∧ t.pc = s.pc ∧ SameControl s t ∧
      ∀ runOpen, Session.host ⟨s, runOpen⟩ (.load image) =
        if runOpen then none else some (⟨t, false⟩, .done)) ∧
  (∀ (s : State) (image : List Byte), 256 < image.length →
    Session.host ⟨s, false⟩ (.load image) = some (⟨s, false⟩, .imageTooLong))

/-- R105: SNAPSHOT returns `pc`, the bytes at `pc`, `pc + 1` and `pc + 2` with those at 256 or more absent, and the eight
registers; in any status, during a RUN or not; and changes nothing (the spec's decision D16). -/
def Obligations.SnapshotChangesNothing : Prop :=
  ∀ (s : State) (runOpen : Bool), ∃ v : Snapshot,
    Session.host ⟨s, runOpen⟩ .snapshot = some (⟨s, runOpen⟩, .snapshot v) ∧
    v.pc = s.pc ∧ v.bytes.length = 3 ∧
    (∀ k (h : k < v.bytes.length), v.bytes[k] =
      if s.pc + k < 256 then some (s.cell (BitVec.ofNat 8 (s.pc + k))) else none) ∧
    (∀ r : Reg, v.regs[r] = s.reg r)

/-- R107: during a RUN the host has no move but SNAPSHOT; between RUNs it may LOAD, RUN or RESET (the spec's decision
D24; that `runOpen` stands beside State is the model's choice, log entry 2, and that a move which is not allowed answers none is
DEDUCED, log entry 11). -/
def Obligations.HostOnlyTakesSnapshotsDuringARun : Prop :=
  (∀ (σ : Session) (m : HostMove), σ.runOpen = true → (σ.host m ≠ none ↔ m = .snapshot)) ∧
  (∀ (σ σ' : Session) (m : HostMove) (reply : Reply), σ.runOpen = true → σ.host m = some (σ', reply) → σ' = σ) ∧
  (∀ (σ : Session) (m : HostMove), σ.runOpen = false → σ.host m ≠ none)

/-- One pass of the loop sends on OUT exactly the bytes it adds to `out`, and happens only inside a RUN; the RUN is over
exactly when no step can happen, with the result of R102 (R73, R102, R104). The RUN in progress in `Session` is the model's choice (log
entry 2). -/
def Obligations.TicksAreTheRunTransaction : Prop :=
  (∀ σ : Session, σ.runOpen = false → σ.tick = none) ∧
  (∀ σ : Session, σ.runOpen = true →
    (σ.block.runResult? = none → ∃ t sent, step σ.block = .next t ∧ t.out = σ.block.out ++ sent ∧ sent.length ≤ 1 ∧
      σ.tick = some (⟨t, true⟩, .stepped sent)) ∧
    (∀ res, σ.block.runResult? = some res → σ.tick = some (⟨σ.block, false⟩, .returned res)))

/-- Host transactions and passes of the loop keep the memory in canonical form (DESIGN CHOICE, log entry 4) and `pc` at
most 256. -/
def Obligations.TransactionsKeepMemoryAndPc : Prop :=
  (Session.initial.block.mem.wf ∧ Session.initial.block.pc ≤ 256) ∧
  (∀ (σ σ' : Session) (m : HostMove) (reply : Reply), σ.block.mem.wf ∧ σ.block.pc ≤ 256 →
    σ.host m = some (σ', reply) → σ'.block.mem.wf ∧ σ'.block.pc ≤ 256) ∧
  (∀ (σ σ' : Session) (e : EngineEvent), σ.block.mem.wf ∧ σ.block.pc ≤ 256 →
    σ.tick = some (σ', e) → σ'.block.mem.wf ∧ σ'.block.pc ≤ 256)

/-- The sink prints a byte as its decimal digits with no leading zero and then 0x0A (R104; the spec's decision D15; the
digits' ASCII codes are PRESUMED, log entry 10). -/
def Obligations.SinkPrintsDecimal : Prop :=
  ∀ v : Byte, ∃ digits : List Byte, renderOut v = digits ++ [0x0A#8] ∧ digits ≠ [] ∧
    (∀ d ∈ digits, 0x30 ≤ d.toNat ∧ d.toNat ≤ 0x39) ∧
    digits.foldl (fun n d => 10 * n + (d.toNat - 0x30)) 0 = v.toNat ∧
    (digits.head? = some 0x30#8 → digits = [0x30#8])

/-- R114: a RUN returns `Halted`, by an HLT that executed, or returns a latched record, or never returns; no two of these,
and with one end only (the spec's decision D23). -/
def Obligations.RunEndsInOneOfThreeWays : Prop :=
  (∀ s : State, s.fault = none →
    (∃ t, RunReturns s .halted t ∧ t.running = false ∧ t.fault = none ∧
      ∃ u, u.mem.read? u.pc = some 0x01#8 ∧ step u = .next t) ∨
    (∃ r t, RunReturns s (.faulted r) t ∧ t.fault = some r ∧ ∃ u, u.fault = none ∧ step u = .next t) ∨
    RunNeverReturns s) ∧
  (∀ (s t t' : State) (res res' : RunResult), RunReturns s res t → RunReturns s res' t' → res = res' ∧ t = t') ∧
  (∀ (s t : State) (res : RunResult), RunReturns s res t → ¬ RunNeverReturns s)

/-- R74: the loop has no step limit. From every state with no record latched, `pc` below 256 and RET in every cell, a RUN
executes valid instructions for ever. -/
def Obligations.ARunMayNeverEnd : Prop :=
  ∀ s : State, s.fault = none → s.pc < 256 → (∀ a : Addr, s.cell a = 0x11#8) → RunNeverReturns s
end

