-- ==== Sys2Proof/Laws/Decode.lean ====
section
/-! SUPPORT. Small laws of the opcode table and of fetch's byte count. -/

namespace Sys2Proof

/-- Every opcode is found under its own byte, so no two rows share a byte (R49). -/
@[simp] theorem ofByte?_byte (o : Opcode) : Opcode.ofByte? o.byte = some o := by
  cases o <;> rfl

/-- A byte that is found is the byte of what is found. -/
theorem byte_of_ofByte? {b : Byte} {o : Opcode} (h : Opcode.ofByte? b = some o) : b = o.byte := by
  have := List.find?_some h
  simpa using (beq_iff_eq.1 this).symm

@[simp] theorem encode_length (i : Instr) : (encode i).length = i.opcode.len := by
  cases i <;> rfl

@[simp] theorem operands_length (i : Instr) : i.operands.length = i.opcode.arity := by
  cases i <;> rfl

/-- Operand bytes make an instruction of that opcode, or there are too few of them. -/
theorem withOperands_cases (o : Opcode) (bs : List Byte) :
    (∃ i rest, o.withOperands bs = some (i, rest) ∧ i.opcode = o ∧ bs = i.operands ++ rest) ∨
    (o.withOperands bs = none ∧ bs.length < o.arity) := by
  cases o
  case hlt => exact .inl ⟨.hlt, bs, rfl, rfl, rfl⟩
  case ret => exact .inl ⟨.ret, bs, rfl, rfl, rfl⟩
  all_goals
    match bs with
    | [] => exact .inr ⟨rfl, by decide⟩
    | [a] => first | exact .inl ⟨_, _, rfl, rfl, rfl⟩ | exact .inr ⟨rfl, by simp [Opcode.arity, Opcode.format, Format.arity]⟩
    | a :: b :: rest => exact .inl ⟨_, _, rfl, rfl, rfl⟩

/-- What the decoder can answer about bytes with an opcode byte: everything the fetch and decode faults rest on. -/
theorem decode_cases (op : Byte) (bs : List Byte) :
    (Opcode.ofByte? op = none ∧ decode (op :: bs) = .error (.illegalOpcode op)) ∨
    (∃ i rest, op = i.opcode.byte ∧ bs = i.operands ++ rest ∧ decode (op :: bs) = .ok (i, rest)) ∨
    (∃ o : Opcode, op = o.byte ∧ bs.length < o.arity ∧ decode (op :: bs) = .error (.missingOperand op bs)) := by
  cases h : Opcode.ofByte? op with
  | none => exact .inl ⟨rfl, by simp [decode, h]⟩
  | some o =>
    have hb := byte_of_ofByte? h
    rcases withOperands_cases o bs with ⟨i, rest, hw, ho, hbs⟩ | ⟨hw, hl⟩
    · exact .inr (.inl ⟨i, rest, by rw [ho, hb], hbs, by simp [decode, h, hw]⟩)
    · exact .inr (.inr ⟨o, hb, hl, by simp [decode, h, hw]⟩)

end Sys2Proof
end

