-- ==== Sys2Proof/Laws/Memory.lean ====
section
/-! SUPPORT. The laws of the memory: read after write, and that every memory operation keeps the canonical form. -/

namespace Sys2Proof.Machine

theorem lookup_put (m : Memory) (hm : m.Pairwise (fun c d => c.1 < d.1)) (a b : Nat) (v : Byte) :
    (m.put a v).lookup b = if b = a then v else m.lookup b := by
  induction m with
  | nil =>
    simp only [Memory.put]
    split <;> simp [Memory.lookup, eq_comm, *]
  | cons c m ih =>
    obtain ⟨k, w⟩ := c
    obtain ⟨hk, hm⟩ := List.pairwise_cons.1 hm
    have absent : ∀ m : Memory, (∀ d ∈ m, k < d.1) → ∀ x, x ≤ k → m.lookup x = Config.cellReset := by
      intro m
      induction m with
      | nil => intros; rfl
      | cons d m ihm =>
        intro h x hx
        have h1 := h d (by simp)
        have h2 : d.1 ≠ x := by omega
        simp only [Memory.lookup, h2, if_false]
        exact ihm (fun e he => h e (by simp [he])) x hx
    simp only [Memory.put]
    by_cases h1 : a < k
    · have h2 : k ≠ a := by omega
      by_cases h3 : b = a
      · subst h3
        by_cases h4 : v = Config.cellReset
        · simp [h1, h4, Memory.lookup, h2, absent m hk b (by omega)]
        · simp [h1, h4, Memory.lookup]
      · have h5 : a ≠ b := fun e => h3 e.symm
        by_cases h4 : v = Config.cellReset <;> simp [h1, h3, h4, h5, Memory.lookup]
    · by_cases h2 : a = k
      · subst h2
        by_cases h3 : b = a
        · subst h3
          by_cases h4 : v = Config.cellReset
          · simp [h4, absent m hk b (le_refl b)]
          · simp [h4, Memory.lookup]
        · have h5 : a ≠ b := fun e => h3 e.symm
          by_cases h4 : v = Config.cellReset <;> simp [h3, h4, h5, Memory.lookup]
      · by_cases h3 : k = b
        · subst h3
          have h5 : ¬ k = a := fun e => h2 e.symm
          simp [h1, h2, h5, Memory.lookup]
        · simp [h1, h2, h3, Memory.lookup, ih hm]

theorem mem_put {m : Memory} {a : Nat} {v : Byte} {c : Host.Cell} (h : c ∈ m.put a v) :
    c ∈ m ∨ (c = (a, v) ∧ v ≠ Config.cellReset) := by
  induction m with
  | nil =>
    simp only [Memory.put] at h
    split at h
    · cases h
    · exact .inr ⟨by simpa using h, ‹_›⟩
  | cons d m ih =>
    obtain ⟨k, w⟩ := d
    simp only [Memory.put] at h
    split at h
    · split at h
      · exact .inl h
      · rcases List.mem_cons.1 h with h | h
        · exact .inr ⟨h, ‹_›⟩
        · exact .inl h
    · split at h
      · split at h
        · exact .inl (List.mem_cons_of_mem _ h)
        · rcases List.mem_cons.1 h with h | h
          · exact .inr ⟨h, ‹_›⟩
          · exact .inl (List.mem_cons_of_mem _ h)
      · rcases List.mem_cons.1 h with h | h
        · exact .inl (h ▸ List.mem_cons_self)
        · exact (ih h).imp (List.mem_cons_of_mem _) id

theorem put_sorted {m : Memory} (hm : m.Pairwise (fun c d => c.1 < d.1)) (a : Nat) (v : Byte) :
    (m.put a v).Pairwise (fun c d => c.1 < d.1) := by
  induction m with
  | nil =>
    simp only [Memory.put]
    split <;> simp
  | cons d m ih =>
    obtain ⟨k, w⟩ := d
    obtain ⟨hk, hm'⟩ := List.pairwise_cons.1 hm
    simp only [Memory.put]
    split
    · split
      · exact hm
      · refine List.pairwise_cons.2 ⟨fun c hc => ?_, hm⟩
        rcases List.mem_cons.1 hc with rfl | hc
        · assumption
        · have := hk c hc
          simp only at *
          omega
    · split
      · split
        · exact hm'
        · subst_vars
          exact List.pairwise_cons.2 ⟨hk, hm'⟩
      · refine List.pairwise_cons.2 ⟨fun c hc => ?_, ih hm'⟩
        rcases mem_put hc with hc | ⟨rfl, -⟩
        · exact hk c hc
        · simp only
          omega

/-- A write keeps the canonical form. -/
theorem write_wf {m : Memory} (hm : m.wf) (a : Addr) (v : Byte) : (m.write a v).wf := by
  refine ⟨put_sorted hm.1 _ _, fun c hc => ?_⟩
  rcases mem_put hc with hc | ⟨rfl, hv⟩
  · exact hm.2 c hc
  · exact ⟨a.isLt, hv⟩

/-- A read gives the byte just written at that address, and what stood there at any other (R33). -/
theorem read_write {m : Memory} (hm : m.wf) (a b : Addr) (v : Byte) :
    (m.write a v).read b = if b = a then v else m.read b := by
  simp only [Memory.read, Memory.write, lookup_put m hm.1, BitVec.toNat_inj]

@[simp] theorem read_write_same {m : Memory} (hm : m.wf) (a : Addr) (v : Byte) : (m.write a v).read a = v := by
  simp [read_write hm]

theorem read_write_other {m : Memory} (hm : m.wf) {a b : Addr} (h : b ≠ a) (v : Byte) :
    (m.write a v).read b = m.read b := by
  simp [read_write hm, h]

theorem store_cell {s : State} (hm : s.mem.wf) (a b : Addr) (v : Byte) :
    (s.store a v).cell b = if b = a then v else s.cell b := read_write hm a b v

/-- Placing bytes keeps the canonical form: LOAD and the host's probe use no other memory operation. -/
theorem place_wf {m : Memory} (hm : m.wf) (a : Nat) (bs : List Byte) : (m.place a bs).wf := by
  induction bs generalizing m a with
  | nil => exact hm
  | cons b bs ih =>
    simp only [Memory.place]
    split
    · exact ih (write_wf hm _ _) _
    · exact hm

theorem reset_mem_wf : State.reset.mem.wf := by decide

theorem load_wf {s t : State} {image : List Byte} (hm : s.mem.wf) (h : s.load? image = some t) : t.mem.wf := by
  simp only [State.load?] at h
  split at h
  · cases h
    exact place_wf hm _ _
  · cases h

theorem withFetchWord_wf {s : State} (hm : s.mem.wf) (nbits w : Nat) : (s.withFetchWord nbits w).mem.wf :=
  place_wf hm _ _

/-- There is a cell at exactly the addresses below 256 (R32, R36). -/
theorem read?_eq_none_iff (m : Memory) (a : Nat) : m.read? a = none ↔ Config.memSize ≤ a := by
  simp only [Memory.read?]
  split <;> simp <;> omega

theorem read?_eq_some {m : Memory} {a : Nat} (h : a < Config.memSize) :
    m.read? a = some (m.read (BitVec.ofNat 8 a)) := by
  simp [Memory.read?, h]

theorem lt_of_read?_eq_some {m : Memory} {a : Nat} {v : Byte} (h : m.read? a = some v) : a < Config.memSize := by
  by_contra hn
  rw [(read?_eq_none_iff m a).2 (by omega)] at h
  cases h

end Sys2Proof.Machine
end

