-- ==== Sys2Proof/Laws/State.lean ====
section
/-! SUPPORT. One lemma for each field of State under each update, and the registers' read-after-write laws. -/

namespace Sys2Proof.Machine

variable (s : State) (r r' : Reg) (v : Byte) (a : Addr) (t : Nat) (b : Bool) (f : FaultRecord)

@[simp] theorem setReg_pc : (s.setReg r v).pc = s.pc := rfl
@[simp] theorem setReg_running : (s.setReg r v).running = s.running := rfl
@[simp] theorem setReg_fault : (s.setReg r v).fault = s.fault := rfl
@[simp] theorem setReg_mem : (s.setReg r v).mem = s.mem := rfl
@[simp] theorem setReg_out : (s.setReg r v).out = s.out := rfl
@[simp] theorem setReg_cell : (s.setReg r v).cell a = s.cell a := rfl

@[simp] theorem store_pc : (s.store a v).pc = s.pc := rfl
@[simp] theorem store_running : (s.store a v).running = s.running := rfl
@[simp] theorem store_fault : (s.store a v).fault = s.fault := rfl
@[simp] theorem store_regs : (s.store a v).regs = s.regs := rfl
@[simp] theorem store_mem : (s.store a v).mem = s.mem.write a v := rfl
@[simp] theorem store_out : (s.store a v).out = s.out := rfl
@[simp] theorem store_reg : (s.store a v).reg r = s.reg r := rfl
@[simp] theorem store_sp : (s.store a v).sp = s.sp := rfl

@[simp] theorem setPc_pc : (s.setPc t).pc = t := rfl
@[simp] theorem setPc_running : (s.setPc t).running = s.running := rfl
@[simp] theorem setPc_fault : (s.setPc t).fault = s.fault := rfl
@[simp] theorem setPc_regs : (s.setPc t).regs = s.regs := rfl
@[simp] theorem setPc_mem : (s.setPc t).mem = s.mem := rfl
@[simp] theorem setPc_out : (s.setPc t).out = s.out := rfl
@[simp] theorem setPc_reg : (s.setPc t).reg r = s.reg r := rfl
@[simp] theorem setPc_sp : (s.setPc t).sp = s.sp := rfl
@[simp] theorem setPc_cell : (s.setPc t).cell a = s.cell a := rfl

@[simp] theorem setRunning_pc : (s.setRunning b).pc = s.pc := rfl
@[simp] theorem setRunning_running : (s.setRunning b).running = b := rfl
@[simp] theorem setRunning_fault : (s.setRunning b).fault = s.fault := rfl
@[simp] theorem setRunning_regs : (s.setRunning b).regs = s.regs := rfl
@[simp] theorem setRunning_mem : (s.setRunning b).mem = s.mem := rfl
@[simp] theorem setRunning_out : (s.setRunning b).out = s.out := rfl
@[simp] theorem setRunning_reg : (s.setRunning b).reg r = s.reg r := rfl
@[simp] theorem setRunning_cell : (s.setRunning b).cell a = s.cell a := rfl

@[simp] theorem emit_pc : (s.emit v).pc = s.pc := rfl
@[simp] theorem emit_running : (s.emit v).running = s.running := rfl
@[simp] theorem emit_fault : (s.emit v).fault = s.fault := rfl
@[simp] theorem emit_regs : (s.emit v).regs = s.regs := rfl
@[simp] theorem emit_mem : (s.emit v).mem = s.mem := rfl
@[simp] theorem emit_out : (s.emit v).out = s.out ++ [v] := rfl
@[simp] theorem emit_reg : (s.emit v).reg r = s.reg r := rfl
@[simp] theorem emit_cell : (s.emit v).cell a = s.cell a := rfl

@[simp] theorem raise_pc : (s.raise f).pc = s.pc := rfl
@[simp] theorem raise_running : (s.raise f).running = s.running := rfl
@[simp] theorem raise_fault : (s.raise f).fault = some f := rfl
@[simp] theorem raise_regs : (s.raise f).regs = s.regs := rfl
@[simp] theorem raise_mem : (s.raise f).mem = s.mem := rfl
@[simp] theorem raise_out : (s.raise f).out = s.out := rfl
@[simp] theorem raise_reg : (s.raise f).reg r = s.reg r := rfl
@[simp] theorem raise_cell : (s.raise f).cell a = s.cell a := rfl

@[simp] theorem decSp_pc : s.decSp.pc = s.pc := rfl
@[simp] theorem decSp_running : s.decSp.running = s.running := rfl
@[simp] theorem decSp_fault : s.decSp.fault = s.fault := rfl
@[simp] theorem decSp_mem : s.decSp.mem = s.mem := rfl
@[simp] theorem decSp_out : s.decSp.out = s.out := rfl
@[simp] theorem decSp_cell : s.decSp.cell a = s.cell a := rfl

@[simp] theorem incSp_pc : s.incSp.pc = s.pc := rfl
@[simp] theorem incSp_running : s.incSp.running = s.running := rfl
@[simp] theorem incSp_fault : s.incSp.fault = s.fault := rfl
@[simp] theorem incSp_mem : s.incSp.mem = s.mem := rfl
@[simp] theorem incSp_out : s.incSp.out = s.out := rfl
@[simp] theorem incSp_cell : s.incSp.cell a = s.cell a := rfl

@[simp] theorem setReg_reg_same : (s.setReg r v).reg r = v := by
  simp [State.reg, State.setReg]

@[simp] theorem setReg_reg_other (h : r' ≠ r) : (s.setReg r v).reg r' = s.reg r' := by
  have h' : r.val ≠ r'.val := fun e => h (Fin.ext e.symm)
  simp [State.reg, State.setReg, h']

theorem setReg_reg : (s.setReg r v).reg r' = if r' = r then v else s.reg r' := by
  by_cases h : r' = r
  · subst h; simp
  · simp [h]

@[simp] theorem decSp_sp : s.decSp.sp = s.sp - 1 := setReg_reg_same _ _ _

@[simp] theorem incSp_sp : s.incSp.sp = s.sp + 1 := setReg_reg_same _ _ _

@[simp] theorem decSp_reg_other (h : r ≠ Config.spIndex) : s.decSp.reg r = s.reg r :=
  setReg_reg_other _ _ _ _ h

@[simp] theorem incSp_reg_other (h : r ≠ Config.spIndex) : s.incSp.reg r = s.reg r :=
  setReg_reg_other _ _ _ _ h

/-- After a push's decrement, naming SP reads the decremented value and any other register is unchanged (R122). -/
theorem decSp_reg : s.decSp.reg r = if r = Config.spIndex then s.sp - 1 else s.reg r := setReg_reg _ _ _ _

/-- After a pop's increment, naming SP reads the incremented value and any other register is unchanged. -/
theorem incSp_reg : s.incSp.reg r = if r = Config.spIndex then s.sp + 1 else s.reg r := setReg_reg _ _ _ _

/-- Two states with the same elements are the same state: R31 has no other state. -/
theorem State.ext_elements {s t : State} (hr : ∀ r, t.reg r = s.reg r) (hp : t.pc = s.pc)
    (hrun : t.running = s.running) (hf : t.fault = s.fault) (hm : t.mem = s.mem) (ho : t.out = s.out) : t = s := by
  have hregs : t.regs = s.regs := by
    apply Vector.ext
    intro i hi
    exact hr ⟨i, hi⟩
  cases s; cases t; simp_all

end Sys2Proof.Machine
end

