-- ==== Sys2Proof/Laws/Operands.lean ====
section
/-! SUPPORT. The register-operand check and the ALU: one lemma each for everything they can do. -/

namespace Sys2Proof.Machine

variable {i : Instr} {a : Byte} {s : State} {k : Reg → Result}

theorem regOf?_of_lt (h : a.toNat < Config.nregs) : regOf? a = some ⟨a.toNat, h⟩ := by
  simp [regOf?, h]

theorem regOf?_of_eq {r : Reg} (h : a.toNat = r.val) : regOf? a = some r := by
  have hlt : a.toNat < Config.nregs := h ▸ r.isLt
  rw [regOf?_of_lt hlt]
  simp [h]

theorem regOf?_of_ge (h : Config.nregs ≤ a.toNat) : regOf? a = none := by
  simp [regOf?, h]

theorem withReg_of_eq {r : Reg} (h : a.toNat = r.val) : withReg i a s k = k r := by
  simp [withReg, regOf?_of_eq h]

theorem withReg_of_ge (h : Config.nregs ≤ a.toNat) :
    withReg i a s k = .next (s.raise (registerIndexRecord s.pc i a)) := by
  simp [withReg, regOf?_of_ge h]

/-- The check raises `REGISTER_INDEX` for this operand, or goes on with the register the byte names. -/
theorem withReg_cases :
    (Config.nregs ≤ a.toNat ∧ withReg i a s k = .next (s.raise (registerIndexRecord s.pc i a))) ∨
    (∃ r : Reg, a.toNat = r.val ∧ withReg i a s k = k r) := by
  by_cases h : a.toNat < Config.nregs
  · exact .inr ⟨⟨a.toNat, h⟩, rfl, withReg_of_eq rfl⟩
  · exact .inl ⟨by omega, withReg_of_ge (by omega)⟩

@[simp] theorem alu_add (x y : Byte) : alu .add x y = x + y := by
  simp [alu, AluOp.exact, BitVec.ofInt_add]

@[simp] theorem alu_sub (x y : Byte) : alu .sub x y = x - y := by
  apply BitVec.eq_of_toNat_eq
  have := x.isLt
  have := y.isLt
  simp only [alu, AluOp.exact, BitVec.toNat_ofInt, BitVec.toNat_sub]
  omega

@[simp] theorem alu_mul (x y : Byte) : alu .mul x y = x * y := by
  simp [alu, AluOp.exact, BitVec.ofInt_mul]

end Sys2Proof.Machine
end

