-- ==== Sys2Proof/Laws/PerInstr.lean ====
section
/-! SUPPORT. The per-instruction families of LAWS.json. `EncodedLength`: an instruction's encoding has the length and the
format the table of 30_encoding.md R49 and R50 gives its opcode. -/

/-- The encoding of `i` is its opcode byte and `arity` operand bytes, of which the register operands are the first ones. -/
def Sys2Proof.Laws.EncodedLength.Statement (i : Sys2Proof.Instr) : Prop :=
  (Sys2Proof.encode i).length = 1 + i.opcode.format.arity ∧ (Sys2Proof.encode i).length ≤ 3 ∧
    i.regOperands = i.operands.take i.regOperands.length

namespace Sys2Proof.Laws.EncodedLength

theorem hlt : Statement .hlt := ⟨rfl, Nat.le_of_ble_eq_true rfl, rfl⟩
theorem prn (a : Byte) : Statement (.prn a) := ⟨rfl, Nat.le_of_ble_eq_true rfl, rfl⟩
theorem ldi (a imm : Byte) : Statement (.ldi a imm) := ⟨rfl, Nat.le_of_ble_eq_true rfl, rfl⟩
theorem push (a : Byte) : Statement (.push a) := ⟨rfl, Nat.le_of_ble_eq_true rfl, rfl⟩
theorem pop (a : Byte) : Statement (.pop a) := ⟨rfl, Nat.le_of_ble_eq_true rfl, rfl⟩
theorem call (a : Byte) : Statement (.call a) := ⟨rfl, Nat.le_of_ble_eq_true rfl, rfl⟩
theorem ret : Statement .ret := ⟨rfl, Nat.le_of_ble_eq_true rfl, rfl⟩
theorem add (a b : Byte) : Statement (.add a b) := ⟨rfl, Nat.le_of_ble_eq_true rfl, rfl⟩
theorem sub (a b : Byte) : Statement (.sub a b) := ⟨rfl, Nat.le_of_ble_eq_true rfl, rfl⟩
theorem mul (a b : Byte) : Statement (.mul a b) := ⟨rfl, Nat.le_of_ble_eq_true rfl, rfl⟩
theorem st (a b : Byte) : Statement (.st a b) := ⟨rfl, Nat.le_of_ble_eq_true rfl, rfl⟩

end Sys2Proof.Laws.EncodedLength
end

