-- ==== Sys2Proof/Laws/Step.lean ====
section
/-! SUPPORT. When a step happens, what fetch reads, and everything an instruction can do. -/

namespace Sys2Proof.Machine

theorem status_running_iff {s : State} : s.status = .running ↔ s.running = true ∧ s.fault = none := by
  cases hf : s.fault <;> cases hr : s.running <;> simp [State.status, hf, hr]

theorem step_of_live {s : State} (hr : s.running = true) (hf : s.fault = none) : step s = engineStep s := by
  simp [step, status_running_iff.2 ⟨hr, hf⟩]

theorem step_of_latched {s : State} {r : FaultRecord} (hf : s.fault = some r) : step s = .fault (.latched r) := by
  simp [step, State.status, hf]

theorem step_of_halted {s : State} (hf : s.fault = none) (hr : s.running = false) : step s = .fault .halted := by
  simp [step, State.status, hf, hr]

/-- A next state comes only from a live state, and then the engine's step gave it (R63, R73). -/
theorem live_of_step {s t : State} (h : step s = .next t) :
    s.running = true ∧ s.fault = none ∧ engineStep s = .next t := by
  cases hf : s.fault with
  | some r => rw [step_of_latched hf] at h; cases h
  | none =>
    cases hr : s.running with
    | false => rw [step_of_halted hf hr] at h; cases h
    | true => exact ⟨rfl, rfl, step_of_live hr hf ▸ h⟩

/-- Operand fetch reads bytes that stand at their addresses, all `n` of them or up to the end of memory (R69). -/
theorem fetchOperands_spec (m : Memory) (a n : Nat) :
    (∀ k (h : k < (fetchOperands m a n).length), m.read? (a + k) = some (fetchOperands m a n)[k]) ∧
    (fetchOperands m a n).length ≤ n ∧
    ((fetchOperands m a n).length < n → Config.memSize ≤ a + (fetchOperands m a n).length) := by
  induction n generalizing a with
  | zero => simp [fetchOperands]
  | succ n ih =>
    cases h : m.read? a with
    | none => simpa [fetchOperands, h] using (read?_eq_none_iff m a).1 h
    | some b =>
      obtain ⟨h1, h2, h3⟩ := ih (a + 1)
      simp only [fetchOperands, h]
      refine ⟨fun k hk => ?_, by simpa using h2, fun hk => ?_⟩
      · cases k with
        | zero => simpa using h
        | succ k =>
          have := h1 k (by simpa using hk)
          simpa [Nat.add_assoc, Nat.add_comm 1 k] using this
      · have := h3 (by simpa using hk)
        simp only [List.length_cons]
        omega

/-- Operand fetch gives the `n` bytes that stand there. -/
theorem fetchOperands_eq {m : Memory} {a : Nat} {bs : List Byte}
    (h : ∀ k (hk : k < bs.length), m.read? (a + k) = some bs[k]) : fetchOperands m a bs.length = bs := by
  induction bs generalizing a with
  | nil => rfl
  | cons b bs ih =>
    have h0 := h 0 (by simp)
    simp only [Nat.add_zero, List.getElem_cons_zero] at h0
    simp only [List.length_cons, fetchOperands, h0]
    congr 1
    apply ih
    intro k hk
    have := h (k + 1) (by simpa using hk)
    simpa [Nat.add_assoc, Nat.add_comm 1 k] using this

/-- Everything one instruction can do, register check included: it raises `REGISTER_INDEX`, or it is a CALL whose return
address does not fit, or it completes with the effect of its rule (R75 to R90). -/
theorem exec_cases (i : Instr) (s : State) :
    (∃ v ∈ i.regOperands, Config.nregs ≤ v.toNat ∧
      exec i s = .next (s.raise (registerIndexRecord s.pc i v))) ∨
    (∃ a ra, i = .call a ∧ a.toNat = Fin.val (n := 8) ra ∧ Config.memSize ≤ s.pc + 2 ∧
      exec i s = .next (s.raise (returnAddressRecord s.pc i (s.pc + 2)))) ∨
    (i.WellFormed ∧ ∃ t, exec i s = .next t ∧
      match i with
      | .hlt => t = (s.setRunning false).setPc (s.pc + 1)
      | .prn a => ∃ ra : Reg, a.toNat = ra.val ∧ t = (s.emit (s.reg ra)).setPc (s.pc + 2)
      | .ldi a imm => ∃ ra : Reg, a.toNat = ra.val ∧ t = (s.setReg ra imm).setPc (s.pc + 3)
      | .push a => ∃ ra : Reg, a.toNat = ra.val ∧
          t = (s.decSp.store s.decSp.sp (s.decSp.reg ra)).setPc (s.pc + 2)
      | .pop a => ∃ ra : Reg, a.toNat = ra.val ∧
          t = (s.setReg ra (s.cell s.sp)).incSp.setPc (s.pc + 2)
      | .call a => ∃ ra : Reg, a.toNat = ra.val ∧ s.pc + 2 < Config.memSize ∧
          t = (s.decSp.store s.decSp.sp (BitVec.ofNat 8 (s.pc + 2))).setPc (s.decSp.reg ra).toNat
      | .ret => t = s.incSp.setPc (s.cell s.sp).toNat
      | .add a b => ∃ ra rb : Reg, a.toNat = ra.val ∧ b.toNat = rb.val ∧
          t = (s.setReg ra (s.reg ra + s.reg rb)).setPc (s.pc + 3)
      | .sub a b => ∃ ra rb : Reg, a.toNat = ra.val ∧ b.toNat = rb.val ∧
          t = (s.setReg ra (s.reg ra - s.reg rb)).setPc (s.pc + 3)
      | .mul a b => ∃ ra rb : Reg, a.toNat = ra.val ∧ b.toNat = rb.val ∧
          t = (s.setReg ra (s.reg ra * s.reg rb)).setPc (s.pc + 3)
      | .st a b => ∃ ra rb : Reg, a.toNat = ra.val ∧ b.toNat = rb.val ∧
          t = (s.store (s.reg ra) (s.reg rb)).setPc (s.pc + 3)) := by
  have one : ∀ (i : Instr) (a : Byte) (k : Reg → Result), i.regOperands = [a] →
      (∃ v ∈ i.regOperands, Config.nregs ≤ v.toNat ∧
        withReg i a s k = .next (s.raise (registerIndexRecord s.pc i v))) ∨
      (i.WellFormed ∧ ∃ r : Reg, a.toNat = r.val ∧ withReg i a s k = k r) := by
    intro i a k hi
    rcases withReg_cases (i := i) (a := a) (s := s) (k := k) with ⟨h, e⟩ | ⟨r, h, e⟩
    · exact .inl ⟨a, by simp [hi], h, e⟩
    · exact .inr ⟨by simp [Instr.WellFormed, hi, h], r, h, e⟩
  have two : ∀ (i : Instr) (a b : Byte) (k : Reg → Reg → Result), i.regOperands = [a, b] →
      (∃ v ∈ i.regOperands, Config.nregs ≤ v.toNat ∧
        (withReg i a s fun r => withReg i b s (k r)) = .next (s.raise (registerIndexRecord s.pc i v))) ∨
      (i.WellFormed ∧ ∃ ra rb : Reg, a.toNat = ra.val ∧ b.toNat = rb.val ∧
        (withReg i a s fun r => withReg i b s (k r)) = k ra rb) := by
    intro i a b k hi
    rcases withReg_cases (i := i) (a := a) (s := s) (k := fun r => withReg i b s (k r)) with ⟨h, e⟩ | ⟨ra, ha, e⟩
    · exact .inl ⟨a, by simp [hi], h, e⟩
    · rcases withReg_cases (i := i) (a := b) (s := s) (k := k ra) with ⟨h, e'⟩ | ⟨rb, hb, e'⟩
      · exact .inl ⟨b, by simp [hi], h, e.trans e'⟩
      · exact .inr ⟨by simp [Instr.WellFormed, hi, ha, hb], ra, rb, ha, hb, e.trans e'⟩
  cases i with
  | hlt => exact .inr (.inr ⟨by simp [Instr.WellFormed, Instr.regOperands], _, rfl, rfl⟩)
  | ret => exact .inr (.inr ⟨by simp [Instr.WellFormed, Instr.regOperands], _, rfl, rfl⟩)
  | prn a =>
    rcases one (.prn a) a (fun ra => .next ((s.emit (s.reg ra)).setPc (s.pc + 2))) rfl with h | ⟨hw, r, hr, e⟩
    · exact .inl h
    · exact .inr (.inr ⟨hw, _, e, r, hr, rfl⟩)
  | ldi a imm =>
    rcases one (.ldi a imm) a (fun ra => .next ((s.setReg ra imm).setPc (s.pc + 3))) rfl with h | ⟨hw, r, hr, e⟩
    · exact .inl h
    · exact .inr (.inr ⟨hw, _, e, r, hr, rfl⟩)
  | push a =>
    rcases one (.push a) a
      (fun ra => .next ((s.decSp.store s.decSp.sp (s.decSp.reg ra)).setPc (s.pc + 2))) rfl with h | ⟨hw, r, hr, e⟩
    · exact .inl h
    · exact .inr (.inr ⟨hw, _, e, r, hr, rfl⟩)
  | pop a =>
    rcases one (.pop a) a
      (fun ra => .next (((s.setReg ra (s.cell s.sp)).incSp).setPc (s.pc + 2))) rfl with h | ⟨hw, r, hr, e⟩
    · exact .inl h
    · exact .inr (.inr ⟨hw, _, e, r, hr, rfl⟩)
  | call a =>
    by_cases hp : Config.memSize ≤ s.pc + 2
    · rcases one (.call a) a
        (fun _ => .next (s.raise (returnAddressRecord s.pc (.call a) (s.pc + 2)))) rfl with h | ⟨hw, r, hr, e⟩
      · exact .inl (by simpa [exec, execCall, hp] using h)
      · exact .inr (.inl ⟨a, r, rfl, hr, hp, by simpa [exec, execCall, hp] using e⟩)
    · rcases one (.call a) a (fun ra => .next ((s.decSp.store s.decSp.sp
        (BitVec.ofNat 8 (s.pc + 2))).setPc (s.decSp.reg ra).toNat)) rfl with h | ⟨hw, r, hr, e⟩
      · exact .inl (by simpa [exec, execCall, hp] using h)
      · exact .inr (.inr ⟨hw, _, by simpa [exec, execCall, hp] using e, r, hr, by omega, rfl⟩)
  | add a b =>
    rcases two (.add a b) a b
      (fun ra rb => .next ((s.setReg ra (alu .add (s.reg ra) (s.reg rb))).setPc (s.pc + 3))) rfl
      with h | ⟨hw, ra, rb, ha, hb, e⟩
    · exact .inl h
    · exact .inr (.inr ⟨hw, _, e, ra, rb, ha, hb, by simp⟩)
  | sub a b =>
    rcases two (.sub a b) a b
      (fun ra rb => .next ((s.setReg ra (alu .sub (s.reg ra) (s.reg rb))).setPc (s.pc + 3))) rfl
      with h | ⟨hw, ra, rb, ha, hb, e⟩
    · exact .inl h
    · exact .inr (.inr ⟨hw, _, e, ra, rb, ha, hb, by simp⟩)
  | mul a b =>
    rcases two (.mul a b) a b
      (fun ra rb => .next ((s.setReg ra (alu .mul (s.reg ra) (s.reg rb))).setPc (s.pc + 3))) rfl
      with h | ⟨hw, ra, rb, ha, hb, e⟩
    · exact .inl h
    · exact .inr (.inr ⟨hw, _, e, ra, rb, ha, hb, by simp⟩)
  | st a b =>
    rcases two (.st a b) a b
      (fun ra rb => .next ((s.store (s.reg ra) (s.reg rb)).setPc (s.pc + 3))) rfl
      with h | ⟨hw, ra, rb, ha, hb, e⟩
    · exact .inl h
    · exact .inr (.inr ⟨hw, _, e, ra, rb, ha, hb, rfl⟩)

/-- Everything one step of a live state can do before an instruction runs: it raises one of the three faults of fetch and
decode, or the bytes at `pc` are those of an instruction and it runs (R64 to R69). -/
theorem engineStep_cases (s : State) :
    (Config.memSize ≤ s.pc ∧ engineStep s = .next (s.raise (fetchAddressRecord s.pc))) ∨
    (∃ op, s.mem.read? s.pc = some op ∧ Opcode.ofByte? op = none ∧
      engineStep s = .next (s.raise (illegalInstructionRecord s.pc op))) ∨
    (∃ (o : Opcode) (got : List Byte), s.mem.read? s.pc = some o.byte ∧ got.length < o.arity ∧
      (∀ k (h : k < got.length), s.mem.read? (s.pc + 1 + k) = some got[k]) ∧
      Config.memSize ≤ s.pc + 1 + got.length ∧
      engineStep s = .next (s.raise (operandAddressRecord s.pc o.byte got))) ∨
    (∃ i : Instr, (∀ k (h : k < (encode i).length), s.mem.read? (s.pc + k) = some (encode i)[k]) ∧
      s.pc + i.opcode.len ≤ Config.memSize ∧ engineStep s = exec i s) := by
  cases h : s.mem.read? s.pc with
  | none =>
    exact .inl ⟨(read?_eq_none_iff _ _).1 h, by simp [engineStep, fetch, h, decode, decodeFault]⟩
  | some op =>
    obtain ⟨hread, hle, hend⟩ := fetchOperands_spec s.mem (s.pc + 1) (operandCount op)
    have hf : fetch s.mem s.pc = op :: fetchOperands s.mem (s.pc + 1) (operandCount op) := by simp [fetch, h]
    rcases decode_cases op (fetchOperands s.mem (s.pc + 1) (operandCount op)) with
      ⟨ho, hd⟩ | ⟨i, rest, hop, hbs, hd⟩ | ⟨o, hop, hl, hd⟩
    · exact .inr (.inl ⟨op, rfl, ho, by simp only [engineStep, hf, hd, decodeFault]⟩)
    · refine .inr (.inr (.inr ⟨i, ?_, ?_, by simp only [engineStep, hf, hd]⟩))
      · intro k hk
        cases k with
        | zero => simpa [encode, hop] using h
        | succ k =>
          have hk' : k < i.operands.length := by simpa [encode] using hk
          have h1 := hread k (by rw [hbs]; simp at hk' ⊢; omega)
          have h2 : (fetchOperands s.mem (s.pc + 1) (operandCount op))[k]'(by
              rw [hbs]; simp at hk' ⊢; omega) = i.operands[k] := by
            simp only [hbs]
            exact List.getElem_append_left hk'
          rw [h2] at h1
          simpa [encode, Nat.add_assoc, Nat.add_comm 1 k] using h1
      · have h0 := lt_of_read?_eq_some h
        by_cases ha : i.opcode.arity = 0
        · simp only [Opcode.len, ha]; omega
        · have hlen : i.opcode.arity ≤ (fetchOperands s.mem (s.pc + 1) (operandCount op)).length := by
            rw [hbs]; simp
          have h1 := lt_of_read?_eq_some (hread (i.opcode.arity - 1) (by omega))
          simp only [Opcode.len]; omega
    · refine .inr (.inr (.inl ⟨o, _, by rw [← hop], hl, hread, hend ?_, ?_⟩))
      · subst hop; simpa [operandCount] using hl
      · simp only [engineStep, hf, hd, decodeFault, ← hop]

/-- The bytes of an instruction at `pc` are what the step fetches, so the step runs it. -/
theorem engineStep_of_bytes {s : State} {i : Instr} {rest : List Byte}
    (h : ∀ k (hk : k < (encode i).length), s.mem.read? (s.pc + k) = some (encode i)[k])
    (hd : decode (encode i) = .ok (i, rest)) : engineStep s = exec i s := by
  have h0 : s.mem.read? s.pc = some i.opcode.byte := by simpa [encode] using h 0 (by simp [Opcode.len])
  have h1 : fetchOperands s.mem (s.pc + 1) i.opcode.arity = i.operands := by
    rw [← operands_length]
    apply fetchOperands_eq
    intro k hk
    have := h (k + 1) (by simpa [encode] using hk)
    simpa [encode, Nat.add_assoc, Nat.add_comm 1 k] using this
  have hf : fetch s.mem s.pc = encode i := by simp [fetch, h0, operandCount, h1, encode]
  simp only [engineStep, hf, hd]

end Sys2Proof.Machine
end

