-- ==== Sys2Proof/Laws/Run.lean ====
section
/-! SUPPORT. Runs of several steps: one lemma for each way `Host.Core.run` goes on. -/

namespace Sys2Proof.Machine

theorem run_zero (s : State) : Sys2Proof.core.run 0 s = .next s := rfl

theorem run_succ_of_next {s t : State} (h : step s = .next t) (n : Nat) :
    Sys2Proof.core.run (n + 1) s = Sys2Proof.core.run n t := by
  have h' : Sys2Proof.core.step s = .next t := h
  simp only [Host.Core.run, h']

/-- A longer run that reaches a next state passes through a next state after its first step. -/
theorem step_of_run_succ {s u : State} {n : Nat} (h : Sys2Proof.core.run (n + 1) s = .next u) :
    ∃ t, step s = .next t ∧ Sys2Proof.core.run n t = .next u := by
  simp only [Host.Core.run] at h
  split at h
  · exact ⟨_, ‹_›, h⟩
  · cases h
  · cases h

/-- Running `m + n` steps is running `m` and then `n`. -/
theorem run_add {s u : State} {m n : Nat} :
    Sys2Proof.core.run (m + n) s = .next u ↔
      ∃ t : State, Sys2Proof.core.run m s = .next t ∧ Sys2Proof.core.run n t = .next u := by
  induction m generalizing s with
  | zero =>
    simp only [Nat.zero_add]
    constructor
    · exact fun h => ⟨s, rfl, h⟩
    · rintro ⟨t, h1, h2⟩
      cases h1
      exact h2
  | succ m ih =>
    rw [show m + 1 + n = (m + n) + 1 by omega]
    constructor
    · intro h
      obtain ⟨t, hs, ht⟩ := step_of_run_succ h
      obtain ⟨v, h1, h2⟩ := ih.1 ht
      exact ⟨v, (run_succ_of_next hs m).trans h1, h2⟩
    · rintro ⟨v, h1, h2⟩
      obtain ⟨t, hs, ht⟩ := step_of_run_succ h1
      exact (run_succ_of_next hs _).trans (ih.2 ⟨v, ht, h2⟩)

end Sys2Proof.Machine
end

