-- ==== Sys2Proof/Machine/AsmText.lean ====
section
/-! DEFINITION. The assembler spelling of an instruction (30_encoding.md R59, R60): mnemonic, then operands in encoding
order, registers as `R0` to `R7`, the immediate in decimal. An operand byte of 8 or more "cannot be spelled except as raw
data", so such an instruction has no text. -/

namespace Sys2Proof.Machine

/-- The mnemonic (R49). -/
def mnemonic : Opcode → String
  | .hlt => "HLT"
  | .prn => "PRN"
  | .ldi => "LDI"
  | .push => "PUSH"
  | .pop => "POP"
  | .call => "CALL"
  | .ret => "RET"
  | .add => "ADD"
  | .sub => "SUB"
  | .mul => "MUL"
  | .st => "ST"

/-- A register operand's spelling. -/
def regText (a : Byte) : String := "R" ++ Nat.repr a.toNat

/-- The line of a well-formed instruction (R59). -/
def asmText? (i : Instr) : Option String :=
  if i.WellFormed then
    some (mnemonic i.opcode ++
      match i with
      | .hlt => ""
      | .ret => ""
      | .prn a => " " ++ regText a
      | .push a => " " ++ regText a
      | .pop a => " " ++ regText a
      | .call a => " " ++ regText a
      | .ldi a imm => " " ++ regText a ++ "," ++ Nat.repr imm.toNat
      | .add a b => " " ++ regText a ++ "," ++ regText b
      | .sub a b => " " ++ regText a ++ "," ++ regText b
      | .mul a b => " " ++ regText a ++ "," ++ regText b
      | .st a b => " " ++ regText a ++ "," ++ regText b)
  else none

end Sys2Proof.Machine
end

