-- ==== Sys2Proof/Machine/Flags.lean ====
section
/-! DEFINITION. There are no flags. "The block has no flags register or condition codes" (10_state.md R29), every
instruction rule says "Flags: none", and overflow, carry and borrow are neither detected nor recorded (45_alu.md R91).
So this file defines nothing. The ALU's results are in `Machine/Alu.lean`. -/
end

