-- ==== Sys2Proof/Tests/Slice0.lean ====
section
/-! SUPPORT. The model's own tests. Expected results are the vectors of spec/95_test_vectors.md, named in each comment, or
words written out from 30_encoding.md R49 and R50; and, for each statement with hypotheses, a witness that meets them. -/

namespace Sys2Proof.Tests

open Sys2Proof.Machine

/-- The reset state with `bs` placed at `p` and `pc = p`: the convention of 95_test_vectors.md. -/
def at_ (p : Nat) (bs : List Byte) : State :=
  { State.reset with pc := p, mem := State.reset.mem.place p bs }

/-- The next state, if there is one. -/
def after : Result → Option State
  | .next t => some t
  | _ => none

/-- A record latched by an `OutOfBoundsAccess`. -/
def bounds (k : BoundsKind) (p : Nat) (op : Option Byte) (ops : List Byte) (v : Nat) : Option FaultRecord :=
  some { kind := .outOfBoundsAccess k, pc := p, opcode := op, operands := ops, value := v }

/-! ### Well-formedness -/

theorem test_illformed_first_operand_refused :
    ¬ (Instr.prn 8).WellFormed ∧ ¬ (Instr.ldi 8 0).WellFormed ∧ ¬ (Instr.push 8).WellFormed ∧
    ¬ (Instr.pop 255).WellFormed ∧ ¬ (Instr.call 8).WellFormed ∧ ¬ (Instr.add 8 0).WellFormed ∧
    ¬ (Instr.sub 8 0).WellFormed ∧ ¬ (Instr.mul 8 0).WellFormed ∧ ¬ (Instr.st 8 0).WellFormed := by decide

theorem test_illformed_second_operand_refused :
    ¬ (Instr.add 0 8).WellFormed ∧ ¬ (Instr.sub 7 255).WellFormed ∧ ¬ (Instr.mul 0 8).WellFormed ∧
    ¬ (Instr.st 0 10).WellFormed := by decide

theorem test_wellformed_accepted :
    Instr.hlt.WellFormed ∧ (Instr.ldi 7 255).WellFormed ∧ (Instr.st 7 7).WellFormed ∧ Instr.ret.WellFormed := by decide

/-! ### Decoding: words written out bit by bit from R49 and R50 -/

theorem test_decode_hlt : decode [0b00000001#8] = .ok (.hlt, []) := by rfl
theorem test_decode_prn : decode [0b01000111#8, 0b00000111#8] = .ok (.prn 7, []) := by rfl
theorem test_decode_ldi : decode [0b10000010#8, 0b00000000#8, 0b00001000#8] = .ok (.ldi 0 8, []) := by rfl
theorem test_decode_push : decode [0b01000101#8, 0b00000010#8] = .ok (.push 2, []) := by rfl
theorem test_decode_pop : decode [0b01000110#8, 0b00000011#8] = .ok (.pop 3, []) := by rfl
theorem test_decode_call : decode [0b01010000#8, 0b00000001#8] = .ok (.call 1, []) := by rfl
theorem test_decode_ret : decode [0b00010001#8, 0b11111111#8] = .ok (.ret, [0xFF#8]) := by rfl
theorem test_decode_add : decode [0b10100000#8, 0b00000001#8, 0b00000010#8] = .ok (.add 1 2, []) := by rfl
theorem test_decode_sub : decode [0b01100110#8, 0b00000001#8, 0b00000010#8] = .ok (.sub 1 2, []) := by rfl
theorem test_decode_mul : decode [0b10100010#8, 0b00000001#8, 0b00000010#8] = .ok (.mul 1 2, []) := by rfl
theorem test_decode_st : decode [0b10000100#8, 0b00000010#8, 0b00000000#8] = .ok (.st 2 0, []) := by rfl

/-- 0xA1 and 0x00 are not opcodes (R56), and a truncated LDI is no instruction (R69). -/
theorem test_decode_rejects :
    decode [0xA1#8, 0, 1] = .error (.illegalOpcode 0xA1#8) ∧ decode [0#8] = .error (.illegalOpcode 0#8) ∧
    decode [0x82#8, 0] = .error (.missingOperand 0x82#8 [0]) ∧ decode [] = .error .noOpcode := ⟨rfl, rfl, rfl, rfl⟩

/-- In the table's numbering the second byte is bits 15 to 8 and the third bits 23 to 16. -/
theorem test_decode_table_word :
    decodeTableWord 24 0x080082 = some (.ldi 0 8) ∧ decodeTableWord 8 0x47 = some (.prn 0) ∧
    decodeTableWord 8 0xA1 = none := ⟨rfl, rfl, rfl⟩

/-- Exactly eleven byte values are opcodes (R49, R55). -/
theorem test_eleven_opcodes :
    ((List.range 256).filter (fun n => (Opcode.ofByte? (BitVec.ofNat 8 n)).isSome)).length = 11 := by decide

/-- R59: the spelling of the source's example. -/
theorem test_asm_text :
    asmText? (.ldi 0 8) = some "LDI R0,8" ∧ asmText? (.mul 0 1) = some "MUL R0,R1" ∧
    asmText? .hlt = some "HLT" ∧ asmText? (.prn 8) = none := by decide

/-! ### Single steps -/

/-- HO-2. -/
theorem test_hlt_at_255 :
    (after (step (at_ 255 [0x01#8]))).map (fun t => (t.running, t.pc, t.fault)) = some (false, 256, none) := by decide

/-- HO-2: a later RUN faults at fetch. -/
theorem test_run_at_256 :
    (after (step ({ at_ 256 [] with running := false }.beginRun))).map (fun t => (t.pc, t.fault)) =
      some (256, bounds .fetchAddress 256 none [] 256) := by decide

/-- HO-4: `PRN R7` after reset. -/
theorem test_prn_r7 :
    (after (step (at_ 0 [0x47#8, 7]))).map (fun t => (t.out, t.pc)) = some ([0xF4#8], 2) := by decide

/-- HO-6. -/
theorem test_prn_register_8 :
    (after (step (at_ 0 [0x47#8, 8]))).map (fun t => (t.out, t.fault)) =
      some ([], bounds .registerIndex 0 (some 0x47#8) [8] 8) := by decide

/-- DM-4. -/
theorem test_ldi_at_253 :
    (after (step (at_ 253 [0x82#8, 0, 5]))).map (fun t => (t.reg 0, t.pc)) = some (5#8, 256) := by decide

/-- DM-5. -/
theorem test_ldi_at_254 :
    (after (step (at_ 254 [0x82#8, 0]))).map (fun t => (t.pc, t.fault)) =
      some (254, bounds .operandAddress 254 (some 0x82#8) [0] 256) := by decide

/-- DM-10: a store to the instruction's own second operand byte. -/
theorem test_st_own_byte :
    (after (step (((at_ 0 [0x84#8, 1, 2]).setReg 1 2).setReg 2 7))).map (fun t => (t.cell 2, t.pc)) =
      some (7#8, 3) := by decide

/-- DM-13: `A` is checked before `B`. -/
theorem test_st_both_registers_bad :
    (after (step (at_ 0 [0x84#8, 9, 10]))).map (fun t => t.fault) =
      some (bounds .registerIndex 0 (some 0x84#8) [9, 10] 9) := by decide

/-- STK-3: SP wraps from 0x00 to 0xFF. -/
theorem test_push_wraps :
    (after (step (((at_ 0x10 [0x45#8, 1]).setReg 7 0).setReg 1 0x5A#8))).map (fun t => (t.sp, t.cell 0xFF#8)) =
      some (0xFF#8, 0x5A#8) := by decide

/-- STK-7: `PUSH R7` stores the decremented SP. -/
theorem test_push_r7 :
    (after (step (at_ 0 [0x45#8, 7]))).map (fun t => (t.sp, t.cell 0xF3#8, t.pc)) = some (0xF3#8, 0xF3#8, 2) := by
  decide

/-- STK-8: `POP R7` leaves the popped byte plus one. -/
theorem test_pop_r7 :
    (after (step (((at_ 0 [0x46#8, 7]).setReg 7 0x50#8).store 0x50#8 0x20#8))).map (fun t => t.sp) =
      some 0x21#8 := by decide

/-- STK-4: SP wraps from 0xFF to 0x00. -/
theorem test_pop_wraps :
    (after (step (((at_ 0x10 [0x46#8, 2]).setReg 7 0xFF#8).store 0xFF#8 0x5A#8))).map (fun t => (t.reg 2, t.sp)) =
      some (0x5A#8, 0#8) := by decide

/-- CTL-4: `CALL R7` jumps to the decremented SP. -/
theorem test_call_r7 :
    (after (step (at_ 0 [0x50#8, 7]))).map (fun t => (t.sp, t.cell 0xF3#8, t.pc)) = some (0xF3#8, 2#8, 0xF3) := by
  decide

/-- CTL-5: the return address 256 does not fit. -/
theorem test_call_at_254 :
    (after (step (at_ 254 [0x50#8, 0]))).map (fun t => (t.sp, t.mem, t.fault)) =
      some (0xF4#8, (at_ 254 [0x50#8, 0]).mem, bounds .returnAddress 254 (some 0x50#8) [0] 256) := by decide

/-- CTL-9. -/
theorem test_ret_wraps :
    (after (step (((at_ 0 [0x11#8]).setReg 7 0xFF#8).store 0xFF#8 0x30#8))).map (fun t => (t.pc, t.sp)) =
      some (0x30, 0#8) := by decide

/-- CTL-10. -/
theorem test_ret_at_255 :
    (after (step ((at_ 255 [0x11#8]).store 0xF4#8 9))).map (fun t => (t.pc, t.sp)) = some (9, 0xF5#8) := by decide

/-- ALU-4: ADD to the stack pointer wraps. -/
theorem test_add_sp :
    (after (step ((at_ 0 [0xA0#8, 7, 1]).setReg 1 12))).map (fun t => t.sp) = some 0#8 := by decide

/-- ALU-17: `OPERAND_ADDRESS` comes before `REGISTER_INDEX`. -/
theorem test_add_at_254 :
    (after (step (at_ 254 [0xA0#8, 9]))).map (fun t => t.fault) =
      some (bounds .operandAddress 254 (some 0xA0#8) [9] 256) := by decide

/-- ALU-5 and ALU-6: the order is `x[A] - x[B]`. -/
theorem test_sub :
    (after (step (((at_ 0 [0x66#8, 0, 1]).setReg 0 5).setReg 1 9))).map (fun t => t.reg 0) = some 252#8 ∧
    (after (step (((at_ 0 [0x66#8, 0, 1]).setReg 0 9).setReg 1 5))).map (fun t => t.reg 0) = some 4#8 := by decide

/-- ALU-11 and ALU-14. -/
theorem test_mul :
    (after (step (((at_ 0 [0xA2#8, 0, 1]).setReg 0 255).setReg 1 255))).map (fun t => t.reg 0) = some 1#8 ∧
    (after (step (((at_ 0 [0xA2#8, 0, 1]).setReg 0 100).setReg 1 3))).map (fun t => t.reg 0) = some 44#8 := by decide

/-- EX-2 and EX-4: illegal opcodes, with no operand fetched. -/
theorem test_illegal_opcodes :
    (after (step State.reset)).map (fun t => t.fault) = some (some (illegalInstructionRecord 0 0#8)) ∧
    (after (step (at_ 0 [0xA1#8, 0, 1]))).map (fun t => (t.fault, t.pc)) =
      some (some ⟨.illegalInstruction, 0, some 0xA1#8, [], 0xA1⟩, 0) := by decide

/-- The probe's word runs as the first instruction after reset (ALU-3's opcode, all registers 0 but SP). -/
theorem test_with_fetch_word :
    (after (step (State.reset.withFetchWord 24 0x0700A0))).map (fun t => (t.reg 0, t.pc, t.fault)) =
      some (0xF4#8, 3, none) := by decide

/-! ### Memory and the host's transactions -/

/-- Writing the reset value removes the entry, and entries rise by address. -/
theorem test_memory_canonical :
    Memory.write (Memory.write (Memory.write [] 5 1) 3 2) 5 0 = [(3, 2#8)] ∧
    Memory.write (Memory.write [] 5 1) 3 2 = [(3, 2#8), (5, 1#8)] := by decide

/-- HT-6: a snapshot at the top of memory. -/
theorem test_snapshot_at_254 :
    (at_ 254 [0x47#8, 0]).snapshot.bytes = [some 0x47#8, some 0, none] := by decide

/-- HT-2: a second LOAD leaves the other cells and `pc`. -/
theorem test_load_keeps_other_cells :
    ((at_ 4 []).load? [0x82#8, 0, 8, 1]).bind (fun t => (t.load? [0x47#8, 0, 1]).map
      (fun u => (u.cell 0, u.cell 2, u.cell 3, u.pc))) = some (0x47#8, 1#8, 1#8, 4) := by decide

/-- R104: 72 is the three bytes 0x37 0x32 0x0A. -/
theorem test_render_72 : renderOut 72 = [0x37#8, 0x32#8, 0x0A#8] := by decide

/-- EX-6: a RUN with a latched record executes nothing and returns it. -/
theorem test_run_with_latched_record :
    (Session.host ⟨State.reset.raise (illegalInstructionRecord 0 0#8), false⟩ .run).bind (fun σ => σ.1.tick) =
      some (⟨State.reset.raise (illegalInstructionRecord 0 0#8), false⟩,
        .returned (.faulted (illegalInstructionRecord 0 0#8))) := by decide

/-! ### Witnesses: each statement's hypotheses are met -/

theorem test_witness_LengthFromOpcodeByteAlone :
    (decode [0x47#8, 3, 9] = .ok (.prn 3, [9]) ∧ decode [0x47#8, 255] = .ok (.prn 255, [])) ∧
    (∀ i : Instr, (encode i).head? ≠ some 0xA1#8) := by
  refine ⟨⟨rfl, rfl⟩, fun i => ?_⟩
  cases i <;> simp [encode, Instr.opcode, Opcode.byte]

theorem test_witness_ResetValues : ((0 : Reg).val < 7 ∧ (6 : Reg).val < 7) := by decide

/-- A memory with a listed cell, a sequence of writes to other cells, and one whose last write to address 3 is known. -/
theorem test_witness_ReadGivesTheLastByteWritten :
    Memory.wf [(3, 1#8)] ∧ (∀ w ∈ [((255 : Addr), (7 : Byte))], w.1 ≠ 3) ∧
    (∀ before after : List (Addr × Byte), before = [(3, 7)] → after = [(255, 9)] →
      [(3, 7), (3, 8), (255, 9)] = before ++ (3, 8) :: after ∧ ∀ w ∈ after, w.1 ≠ 3) := by
  refine ⟨by decide, by simp, ?_⟩
  rintro _ _ rfl rfl
  exact ⟨rfl, by simp⟩

/-- Two memories written in different orders read alike. -/
theorem test_witness_MemoriesThatReadAlikeAreEqual :
    Memory.wf (Memory.write (Memory.write [] 255 2) 0 1) ∧ Memory.wf (Memory.write (Memory.write [] 0 1) 255 2) ∧
    ∀ a : Addr, Memory.read (Memory.write (Memory.write [] 255 2) 0 1) a =
      Memory.read (Memory.write (Memory.write [] 0 1) 255 2) a := by
  refine ⟨by decide, by decide, fun a => ?_⟩
  rw [show Memory.write (Memory.write [] 255 2) 0 1 = Memory.write (Memory.write [] 0 1) 255 2 by decide]

/-- The state and operands for the fault of an instruction that does not fit: at 255 with no operand, and, for two
operands, at 254 with one. -/
theorem test_witness_RaisesOperandAddress :
    (∀ op : Byte, op = 0x47#8 ∨ op = 0x45#8 ∨ op = 0x46#8 ∨ op = 0x50#8 →
      (at_ 255 [op]).Live ∧ (at_ 255 [op]).BytesAt (at_ 255 [op]).pc (op :: []) ∧
        ([] : List Byte).length < 1 ∧ 256 ≤ (at_ 255 [op]).pc + 1 + ([] : List Byte).length) ∧
    (∀ op : Byte, op = 0x82#8 ∨ op = 0x84#8 ∨ op = 0xA0#8 ∨ op = 0x66#8 ∨ op = 0xA2#8 →
      ((at_ 255 [op]).Live ∧ (at_ 255 [op]).BytesAt (at_ 255 [op]).pc (op :: []) ∧
        ([] : List Byte).length < 2 ∧ 256 ≤ (at_ 255 [op]).pc + 1 + ([] : List Byte).length) ∧
      ((at_ 254 [op, 9]).Live ∧ (at_ 254 [op, 9]).BytesAt (at_ 254 [op, 9]).pc (op :: [9]) ∧
        ([9] : List Byte).length < 2 ∧ 256 ≤ (at_ 254 [op, 9]).pc + 1 + ([9] : List Byte).length)) := by
  constructor
  · rintro op (rfl | rfl | rfl | rfl) <;> decide
  · rintro op (rfl | rfl | rfl | rfl | rfl) <;> decide

theorem test_witness_HltFollowsItsRule : (at_ 255 [0x01#8]).fault = none ∧ (at_ 255 [0x01#8]).pc = 255 := by decide

/-- One register operand, at both ends of `[0, 8)` and outside it (PRN, LDI, PUSH, POP). -/
theorem test_witness_OneRegisterOperand :
    State.reset.mem.wf ∧ (0#8).toNat = (0 : Reg).val ∧ (7#8).toNat = (7 : Reg).val ∧
    8 ≤ (8#8).toNat ∧ 8 ≤ (255#8).toNat := by decide

theorem test_witness_PrnFollowsItsRule :
    (7#8).toNat = (7 : Reg).val ∧ 8 ≤ (8#8).toNat ∧ (7#8).toNat < 8 := by decide
theorem test_witness_LdiFollowsItsRule :
    ((7#8).toNat = (7 : Reg).val ∧ (at_ 253 [0x82#8, 7, 0]).Live ∧ (at_ 253 [0x82#8, 7, 0]).pc = 253) ∧
    8 ≤ (8#8).toNat := by decide
theorem test_witness_PushFollowsItsRule :
    State.reset.mem.wf ∧ (7#8).toNat = (7 : Reg).val ∧ 8 ≤ (8#8).toNat := by decide
theorem test_witness_PopFollowsItsRule :
    ((0#8).toNat = (0 : Reg).val ∧ (0 : Reg) ≠ 7) ∧ (7#8).toNat = (7 : Reg).val ∧ 8 ≤ (8#8).toNat := by decide
theorem test_witness_CallFollowsItsRule :
    (State.reset.mem.wf ∧ (7#8).toNat = (7 : Reg).val ∧ (at_ 253 []).pc + 2 < 256) ∧ 8 ≤ (8#8).toNat ∧
    ((7#8).toNat < 8 ∧ 256 ≤ (at_ 254 []).pc + 2) := by decide

/-- Two register operands: both legal, `A` outside, and `A` legal with `B` outside. -/
theorem test_witness_TwoRegisterOperands :
    ((7#8).toNat = (7 : Reg).val ∧ (0#8).toNat = (0 : Reg).val) ∧ 8 ≤ (8#8).toNat ∧
    ((7#8).toNat < 8 ∧ 8 ≤ (8#8).toNat) := by decide

theorem test_witness_StFollowsItsRule :
    (State.reset.mem.wf ∧ (7#8).toNat = (7 : Reg).val ∧ (0#8).toNat = (0 : Reg).val) ∧ 8 ≤ (8#8).toNat ∧
    ((7#8).toNat < 8 ∧ 8 ≤ (8#8).toNat) := by decide

/-- ST at 0xF3 with its own bytes at `pc`, storing to one of them (`x[7]` is 0xF4 after reset). -/
theorem test_witness_StToItsOwnBytes :
    (at_ 0xF3 [0x84#8, 7, 0]).mem.wf ∧ (at_ 0xF3 [0x84#8, 7, 0]).Live ∧
    (at_ 0xF3 [0x84#8, 7, 0]).BytesAt (at_ 0xF3 [0x84#8, 7, 0]).pc [0x84#8, 7, 0] := by decide
theorem test_witness_AddFollowsItsRule :
    ((7#8).toNat = (7 : Reg).val ∧ (7#8).toNat = (7 : Reg).val) ∧ 8 ≤ (8#8).toNat ∧
    ((7#8).toNat < 8 ∧ 8 ≤ (8#8).toNat) := test_witness_TwoRegisterOperands |> fun h => ⟨⟨h.1.1, h.1.1⟩, h.2⟩
theorem test_witness_SubFollowsItsRule :
    ((7#8).toNat = (7 : Reg).val ∧ (0#8).toNat = (0 : Reg).val) ∧ 8 ≤ (8#8).toNat ∧
    ((7#8).toNat < 8 ∧ 8 ≤ (8#8).toNat) := test_witness_TwoRegisterOperands
theorem test_witness_MulFollowsItsRule :
    ((7#8).toNat = (7 : Reg).val ∧ (0#8).toNat = (0 : Reg).val) ∧ 8 ≤ (8#8).toNat ∧
    ((7#8).toNat < 8 ∧ 8 ≤ (8#8).toNat) := test_witness_TwoRegisterOperands

theorem test_witness_StepRunsTheInstructionAtPc :
    (at_ 253 [0x84#8, 9, 0]).Live ∧ (at_ 253 [0x84#8, 9, 0]).BytesAt (at_ 253 [0x84#8, 9, 0]).pc (encode (.st 9 0)) := by
  decide

theorem test_witness_EveryRunningStateSteps :
    (State.reset.setRunning false).status = .halted ∧
    (State.reset.raise (illegalInstructionRecord 0 0#8)).status = .faulted (illegalInstructionRecord 0 0#8) := by decide

theorem test_witness_StepRefinesThePseudocode : State.reset.mem.wf ∧ State.reset.Live := by decide

theorem test_witness_EveryStepKeepsTheInvariant :
    (at_ 255 [0x01#8]).Inv ∧ ∃ t, step (at_ 255 [0x01#8]) = .next t :=
  ⟨⟨by decide, by decide, fun r h => by cases h⟩, _, rfl⟩

theorem test_witness_PcAfterEachInstruction :
    (∃ t, step (at_ 255 [0x01#8]) = .next t ∧ t.fault = none) ∧
    (at_ 255 [0x01#8]).BytesAt (at_ 255 [0x01#8]).pc (encode .hlt) ∧
    (∃ t, step (at_ 253 [0x50#8, 7]) = .next t ∧ t.fault = none) ∧
    (at_ 253 [0x50#8, 7]).BytesAt (at_ 253 [0x50#8, 7]).pc (encode (.call 7)) :=
  ⟨⟨_, rfl, rfl⟩, by decide, ⟨_, rfl, rfl⟩, by decide⟩

/-- A step that stores (PUSH R7), one that clears `running` and one that appends to `out`: the premise of the statements
about every step. -/
theorem test_witness_AStepThatStores :
    (at_ 0 [0x45#8, 7]).mem.wf ∧ (at_ 0 [0x45#8, 7]).Live ∧
    ∃ t, step (at_ 0 [0x45#8, 7]) = .next t ∧ t.cell 0xF3#8 ≠ (at_ 0 [0x45#8, 7]).cell 0xF3#8 :=
  ⟨by decide, by decide, _, rfl, by decide⟩

theorem test_witness_OnlyHltClearsRunning :
    (∃ t, step (at_ 255 [0x01#8]) = .next t ∧ t.running = false) ∧
    (∃ t, step (at_ 0 [0x45#8, 7]) = .next t ∧ (at_ 0 [0x45#8, 7]).mem.read? 0 ≠ some 0x01#8) :=
  ⟨⟨_, rfl, rfl⟩, _, rfl, by decide⟩

/-- The other clauses of `OnlyHltClearsRunning`: an instruction that completes, and a halted state. -/
theorem test_witness_OnlyHltClearsRunning_exec :
    (∃ t, exec (.push 7) State.reset = .next t) ∧ (State.reset.setRunning false).fault = none ∧
    (State.reset.setRunning false).running = false := ⟨⟨_, rfl⟩, rfl, rfl⟩

theorem test_witness_OutputIsOnlyAppendedAndNeverRead :
    ∃ t, step (at_ 0 [0x47#8, 7]) = .next t ∧ t.out = [0xF4#8] := ⟨_, rfl, by decide⟩

theorem test_witness_OnlyPushCallAndStWriteMemory :
    (at_ 0 [0x84#8, 7, 7]).mem.wf ∧
    ∃ t, step (at_ 0 [0x84#8, 7, 7]) = .next t ∧ t.cell 0xF4#8 ≠ (at_ 0 [0x84#8, 7, 7]).cell 0xF4#8 :=
  ⟨by decide, _, rfl, by decide⟩

/-- POP with a differing cell next to the one it reads, and next to its last byte. -/
theorem test_witness_StepReadsOnlyTheListedCells :
    (at_ 0 [0x46#8, 0]).mem.wf ∧ (at_ 0 [0x46#8, 0]).Live ∧
    (∀ k, k < (fetch (at_ 0 [0x46#8, 0]).mem (at_ 0 [0x46#8, 0]).pc).length →
      (2#8).toNat ≠ (at_ 0 [0x46#8, 0]).pc + k) ∧
    ((at_ 0 [0x46#8, 0]).mem.read? 0 = some 0x46#8 ∧ 2#8 ≠ (at_ 0 [0x46#8, 0]).sp) := by decide

theorem test_witness_NextFetchSeesTheStore :
    (∃ t, exec (.st 0 1) ((at_ 0 []).setReg 0 3) = .next t ∧ t.pc = (((at_ 0 []).setReg 0 3).reg 0).toNat) ∧
    (∃ t, exec (.push 7) ((at_ 0 []).setReg 7 3) = .next t ∧ t.pc = (((at_ 0 []).setReg 7 3).decSp.sp).toNat) ∧
    (∃ t, exec (.call 7) (at_ 253 []) = .next t ∧ t.pc = ((at_ 253 []).decSp.sp).toNat ∧ (at_ 253 []).pc + 2 < 256) :=
  ⟨⟨_, rfl, by decide⟩, ⟨_, rfl, by decide⟩, _, rfl, by decide, by decide⟩

theorem test_witness_StackPointerWrapsWithoutFault :
    State.reset.mem.wf ∧ (7#8).toNat = (7 : Reg).val ∧ ((6#8).toNat = (6 : Reg).val ∧ (6 : Reg) ≠ 7) ∧
    (∃ t, exec (.push 7) (State.reset.setReg 7 0) = .next t ∧ t.sp = 0xFF#8) ∧
    (∃ t, exec (.call 0) ((at_ 253 []).setReg 7 0) = .next t ∧ t.sp = 0xFF#8) ∧
    (∃ t, exec (.pop 6) (State.reset.setReg 7 0xFF#8) = .next t ∧ t.sp = 0#8) ∧
    (∃ t, exec (.pop 7) State.reset = .next t ∧ t.sp = 1#8) ∧
    (∃ t, exec .ret (State.reset.setReg 7 0xFF#8) = .next t ∧ t.sp = 0#8) :=
  ⟨by decide, by decide, by decide, ⟨_, rfl, by decide⟩, ⟨_, rfl, by decide⟩, ⟨_, rfl, by decide⟩,
    ⟨_, rfl, by decide⟩, _, rfl, by decide⟩

theorem test_witness_PopAfterPushRestoresTheRegisters : State.reset.mem.wf ∧ (7#8).toNat < 8 := by decide
theorem test_witness_RetFollowsItsRule :
    State.reset.mem.wf ∧ (7#8).toNat < 8 ∧ (at_ 253 []).pc + 2 < 256 := by decide
theorem test_witness_AluIsExactModulo256AndInPlace :
    (7#8).toNat = (7 : Reg).val ∧ (0#8).toNat = (0 : Reg).val := by decide

theorem test_witness_EveryOtherOpcodeByteIsIllegal :
    (at_ 255 [0xFF#8]).Live ∧ (at_ 255 [0xFF#8]).mem.read? (at_ 255 [0xFF#8]).pc = some 0xFF#8 ∧
    0xA3 ≤ (0xFF#8).toNat ∧
    (at_ 255 [0x47#8]).mem.read? (at_ 255 [0x47#8]).pc = some 0x47#8 ∧
    (∃ t r, step (at_ 255 [0x47#8]) = .next t ∧ t.fault = some r) :=
  ⟨by decide, by decide, by decide, by decide, _, _, rfl, rfl⟩

theorem test_witness_FetchBeyondMemoryFaults :
    ((at_ 255 []).Live ∧ (at_ 255 []).pc < 256) ∧ ((at_ 256 []).Live ∧ 256 ≤ (at_ 256 []).pc) := by decide

theorem test_witness_OperandBeyondMemoryFaults :
    ((at_ 255 [0x47#8]).Live ∧ (at_ 255 [0x47#8]).pc = 255 ∧ (at_ 255 [0x47#8]).mem.read? 255 = some 0x47#8) ∧
    ((at_ 254 [0x82#8, 9]).Live ∧ (at_ 254 [0x82#8, 9]).pc = 254 ∧
      (at_ 254 [0x82#8, 9]).mem.read? 254 = some 0x82#8 ∧ (at_ 254 [0x82#8, 9]).mem.read? 255 = some 9) := by decide

theorem test_witness_RegisterIndexIsChecked :
    ((at_ 253 [0xA0#8, 7, 8]).Live ∧ (at_ 253 [0xA0#8, 7, 8]).BytesAt (at_ 253 [0xA0#8, 7, 8]).pc (encode (.add 7 8)) ∧
      (Instr.add 7 8).regOperands.find? (fun r => 8 ≤ r.toNat) = some 8#8) ∧
    ((at_ 254 []).fault = none ∧ (Instr.call 7).WellFormed ∧
      ∃ t r, exec (.call 7) (at_ 254 []) = .next t ∧ t.fault = some r) :=
  ⟨by decide, by decide, by decide, _, _, rfl, rfl⟩

/-- A step that raises: the premise of the statements about faults. -/
theorem test_witness_FaultsArePrecise : ∃ t r, step (at_ 254 [0x50#8, 7]) = .next t ∧ t.fault = some r :=
  ⟨_, _, rfl, rfl⟩

theorem test_witness_UnsupportedOperationIsNeverRaised : ∃ t r, step (at_ 0 [0xA0#8, 8, 0]) = .next t ∧ t.fault = some r :=
  ⟨_, _, rfl, rfl⟩

theorem test_witness_OnlyResetClearsTheLatch :
    (State.reset.raise (illegalInstructionRecord 0 0#8)).fault = some (illegalInstructionRecord 0 0#8) ∧
    (∃ σ reply, Session.host ⟨State.reset.raise (illegalInstructionRecord 0 0#8), false⟩ (.load [1]) =
      some (σ, reply)) ∧ HostMove.load [1] ≠ .reset ∧
    (∃ σ e, Session.tick ⟨State.reset.raise (illegalInstructionRecord 0 0#8), true⟩ = some (σ, e)) ∧
    Session.initial.runOpen = false :=
  ⟨rfl, ⟨_, _, rfl⟩, by decide, ⟨_, _, rfl⟩, rfl⟩

theorem test_witness_LoadPlacesTheImage :
    (State.reset.mem.wf ∧ (List.replicate 256 (1#8)).length ≤ 256 ∧ (255#8).toNat < (List.replicate 256 (1#8)).length) ∧
    ([1#8].length ≤ 256 ∧ [1#8].length ≤ (1#8).toNat) ∧ 256 < (List.replicate 257 (1#8)).length := by
  simp only [List.length_replicate]
  decide

theorem test_witness_HostOnlyTakesSnapshotsDuringARun :
    (Session.mk State.reset true).runOpen = true ∧ Session.initial.runOpen = false ∧
    ∃ σ reply, Session.host ⟨State.reset, true⟩ .snapshot = some (σ, reply) := ⟨rfl, rfl, _, _, rfl⟩

theorem test_witness_TicksAreTheRunTransaction :
    Session.initial.runOpen = false ∧ (Session.mk State.reset true).runOpen = true ∧
    State.reset.runResult? = none ∧ (State.reset.setRunning false).runResult? = some .halted := by decide

theorem test_witness_TransactionsKeepMemoryAndPc :
    (Session.initial.block.mem.wf ∧ Session.initial.block.pc ≤ 256) ∧
    (∃ σ reply, Session.initial.host .run = some (σ, reply)) ∧
    (∃ σ e, Session.tick ⟨at_ 255 [0x01#8], true⟩ = some (σ, e)) := ⟨by decide, ⟨_, _, rfl⟩, _, _, rfl⟩

theorem test_witness_SinkPrintsDecimal : renderOut 0 = [0x30#8, 0x0A#8] ∧ renderOut 255 = [0x32#8, 0x35#8, 0x35#8, 0x0A#8] := by
  decide

theorem test_witness_RunEndsInOneOfThreeWays :
    (at_ 0 [0x01#8]).fault = none ∧ ∃ t, RunReturns (at_ 0 [0x01#8]) .halted t :=
  ⟨rfl, _, 1, rfl, rfl⟩

/-- Every cell holds RET: the state of `ARunMayNeverEnd`, reached by a LOAD of 256 such bytes. -/
def allRet : State :=
  { State.reset with mem := (List.range 256).map (fun a => (a, 0x11#8)) }

theorem test_lookup_all_ret (n k a : Nat) (h1 : k ≤ a) (h2 : a < k + n) :
    Memory.lookup ((List.range' k n).map (fun a => (a, 0x11#8))) a = 0x11#8 := by
  induction n generalizing k with
  | zero => omega
  | succ n ih =>
    simp only [List.range'_succ, List.map_cons, Memory.lookup]
    split
    · rfl
    · exact ih (k + 1) (by omega) (by omega)

theorem test_witness_ARunMayNeverEnd :
    allRet.fault = none ∧ allRet.pc < 256 ∧ ∀ a : Addr, allRet.cell a = 0x11#8 := by
  refine ⟨rfl, by decide, fun a => ?_⟩
  have := test_lookup_all_ret 256 0 a.toNat (by omega) (by have := a.isLt; omega)
  simpa [State.cell, Memory.read, allRet, List.range_eq_range'] using this

end Sys2Proof.Tests
end

