-- ==== Sys2Proof/Proofs/State.lean ====
section
/-! The statements about the state of 10_state.md: its reset values (R20), the status (R26) and the running flag (R24). -/

namespace Sys2Proof.Machine

/-! ### Reset -/

/-- Settles O4: memory reads as 0 at every address because no cell is listed after RESET. -/
theorem resetValues : Obligations.ResetValues := by
  unfold Obligations.ResetValues
  have regs_zero : ∀ r : Reg, r.val < 7 → State.reset.reg r = 0 := by decide
  have cells_zero : ∀ a : Addr, State.reset.cell a = 0 := fun _ => rfl
  exact ⟨regs_zero, rfl, rfl, rfl, rfl, cells_zero, rfl⟩

/-! ### The status and the steps -/

theorem status_halted_iff {s : State} : s.status = .halted ↔ s.running = false ∧ s.fault = none := by
  cases hf : s.fault <;> cases hr : s.running <;> simp [State.status, hf, hr]

theorem status_faulted_iff {s : State} {r : FaultRecord} : s.status = .faulted r ↔ s.fault = some r := by
  cases hf : s.fault <;> cases hr : s.running <;> simp [State.status, hf, hr]

/-- Every instruction has a next state: its faults are next states too (R95), and no arm refuses. -/
theorem exists_exec_eq_next (i : Instr) (s : State) : ∃ t, exec i s = .next t := by
  rcases exec_cases i s with ⟨_, _, _, raised⟩ | ⟨_, _, _, _, _, raised⟩ | ⟨_, t, done, _⟩
  · exact ⟨_, raised⟩
  · exact ⟨_, raised⟩
  · exact ⟨t, done⟩

theorem exists_engineStep_eq_next (s : State) : ∃ t, engineStep s = .next t := by
  rcases engineStep_cases s with ⟨_, raised⟩ | ⟨_, _, _, raised⟩ | ⟨_, _, _, _, _, _, raised⟩ | ⟨i, _, _, ran⟩
  · exact ⟨_, raised⟩
  · exact ⟨_, raised⟩
  · exact ⟨_, raised⟩
  · exact ran ▸ exists_exec_eq_next i s

theorem status_running_iff_steps {s : State} : s.status = .running ↔ ∃ t, step s = .next t := by
  constructor
  · intro h
    obtain ⟨running, no_fault⟩ := status_running_iff.1 h
    exact step_of_live running no_fault ▸ exists_engineStep_eq_next s
  · rintro ⟨t, h⟩
    obtain ⟨running, no_fault, _⟩ := live_of_step h
    exact status_running_iff.2 ⟨running, no_fault⟩

theorem step_of_status_halted {s : State} (h : s.status = .halted) : step s = .fault .halted :=
  let ⟨stopped, no_fault⟩ := status_halted_iff.1 h
  step_of_halted no_fault stopped

/-- Outside a RUN the engine makes no pass (R73). -/
theorem tick_of_closed (s : State) : (Session.mk s false).tick = none := rfl

/-- Settles O20: a live state steps because neither fetch and decode nor an instruction stops the machine; the other two
statuses are what `step` answers its two stops for. -/
theorem everyRunningStateSteps : Obligations.EveryRunningStateSteps := by
  unfold Obligations.EveryRunningStateSteps
  intro s
  exact ⟨status_running_iff_steps, status_running_iff, status_halted_iff, fun _ => status_faulted_iff,
    step_of_status_halted, fun _ h => step_of_latched (status_faulted_iff.1 h), tick_of_closed s⟩

/-! ### The running flag -/

/-- The register check commutes with a change `f` of the state that keeps `pc` and lets a fault be raised as before. -/
theorem withReg_next_of_commute {f : State → State} {i : Instr} {a : Byte} {s t : State} {k k' : Reg → Result}
    (hpc : (f s).pc = s.pc) (hraise : ∀ r, f (s.raise r) = (f s).raise r)
    (hk : ∀ r t, k r = .next t → k' r = .next (f t)) (h : withReg i a s k = .next t) :
    withReg i a (f s) k' = .next (f t) := by
  rcases withReg_cases (i := i) (a := a) (s := s) (k := k) with ⟨bad, raised⟩ | ⟨r, good, goes_on⟩
  · cases raised.symm.trans h
    rw [withReg_of_ge bad, hpc, hraise]
  · rw [withReg_of_eq good]
    exact hk r t (goes_on.symm.trans h)

theorem withReg_next_setRunning {i : Instr} {a : Byte} {s t : State} {b : Bool} {k k' : Reg → Result}
    (hk : ∀ r t, k r = .next t → k' r = .next (t.setRunning b)) (h : withReg i a s k = .next t) :
    withReg i a (s.setRunning b) k' = .next (t.setRunning b) :=
  withReg_next_of_commute (f := fun u => u.setRunning b) rfl (fun _ => rfl) hk h

theorem exec_hlt (s : State) : exec .hlt s = .next ((s.setRunning false).setPc (s.pc + 1)) := rfl

/-- No instruction reads the flag, and only HLT writes it. -/
theorem exec_setRunning {i : Instr} {s t : State} (b : Bool) (hi : i ≠ .hlt) (h : exec i s = .next t) :
    exec i (s.setRunning b) = .next (t.setRunning b) := by
  cases i with
  | hlt => exact absurd rfl hi
  | ret => cases h; rfl
  | prn a | push a | pop a => exact withReg_next_setRunning (fun _ _ done => by cases done; rfl) h
  | ldi a imm => exact withReg_next_setRunning (fun _ _ done => by cases done; rfl) h
  | call a =>
    refine withReg_next_setRunning (fun _ _ done => ?_) h
    by_cases hret : Config.memSize ≤ s.pc + 2
    · simp only [setRunning_pc, hret, if_true] at done ⊢
      cases done
      rfl
    · simp only [setRunning_pc, hret, if_false] at done ⊢
      cases done
      rfl
  | add a b | sub a b | mul a b | st a b =>
    exact withReg_next_setRunning
      (fun _ _ rest => withReg_next_setRunning (fun _ _ done => by cases done; rfl) rest) h

/-- An instruction commutes with setting the flag, in particular to the value it has. -/
theorem running_of_exec {i : Instr} {s t : State} (hi : i ≠ .hlt) (h : exec i s = .next t) :
    t.running = s.running := by
  have again : exec i s = .next (t.setRunning s.running) := exec_setRunning s.running hi h
  have same : t = t.setRunning s.running := Host.Outcome.next.inj (h.symm.trans again)
  rw [same, setRunning_running]

theorem opcode_byte_eq_hlt_iff {i : Instr} : i.opcode.byte = 0x01#8 ↔ i = .hlt := by
  cases i <;> simp [Instr.opcode, Opcode.byte]

theorem engineStep_of_hlt_byte {s : State} (h : s.mem.read? s.pc = some 0x01#8) : engineStep s = exec .hlt s := by
  refine engineStep_of_bytes (fun k hk => ?_) (rfl : decode (encode .hlt) = .ok (.hlt, []))
  obtain rfl : k = 0 := Nat.lt_one_iff.1 hk
  exact h

theorem running_of_engineStep {s t : State} (hbyte : s.mem.read? s.pc ≠ some 0x01#8) (h : engineStep s = .next t) :
    t.running = s.running := by
  rcases engineStep_cases s with
    ⟨_, raised⟩ | ⟨_, _, _, raised⟩ | ⟨_, _, _, _, _, _, raised⟩ | ⟨i, bytes, _, ran⟩
  · cases raised.symm.trans h; rfl
  · cases raised.symm.trans h; rfl
  · cases raised.symm.trans h; rfl
  · have opcode_at_pc : s.mem.read? s.pc = some i.opcode.byte := bytes 0 (Nat.succ_pos _)
    have not_hlt : i ≠ .hlt := fun hi => hbyte (opcode_at_pc.trans (congrArg some (opcode_byte_eq_hlt_iff.2 hi)))
    exact running_of_exec not_hlt (ran.symm.trans h)

theorem step_running_eq_false_iff {s t : State} (h : step s = .next t) :
    t.running = false ↔ s.mem.read? s.pc = some 0x01#8 := by
  obtain ⟨running, _, hstep⟩ := live_of_step h
  by_cases hbyte : s.mem.read? s.pc = some 0x01#8
  · rw [engineStep_of_hlt_byte hbyte, exec_hlt] at hstep
    cases hstep
    simp [hbyte]
  · simp [running_of_engineStep hbyte hstep, running, hbyte]

theorem exec_with_running {i : Instr} {s t : State} (b : Bool) (h : exec i s = .next t) :
    exec i { s with running := b } = .next { t with running := if i = .hlt then false else b } := by
  by_cases hi : i = .hlt
  · subst hi
    rw [exec_hlt] at h
    cases h
    rfl
  · rw [if_neg hi]
    exact exec_setRunning b hi h

/-- Settles O24: each instruction but HLT commutes with setting the flag, so it neither reads nor writes it, and raising a
fault writes the latch alone. -/
theorem onlyHltClearsRunning : Obligations.OnlyHltClearsRunning := by
  unfold Obligations.OnlyHltClearsRunning
  refine ⟨rfl, fun _ => rfl, fun s t h => ⟨step_running_eq_false_iff h, fun hbyte => ?_⟩,
    fun _ _ _ b h => exec_with_running b h, fun _ no_fault stopped => step_of_halted no_fault stopped⟩
  obtain ⟨_, _, hstep⟩ := live_of_step h
  exact running_of_engineStep hbyte hstep

end Sys2Proof.Machine
end

