-- ==== Sys2Proof/Proofs/Memory.lean ====
section
/-! The statements about the memory of 20_memory.md: read after write (R33), which cells a step writes
(R34), and that the next fetch sees a store (R45). What a step reads is in `Proofs/MemoryReads.lean`. -/

namespace Sys2Proof.Machine

/-! ### Reads after writes -/

/-- The memory after a list of writes, the first one first. -/
def Memory.writes (m : Memory) (ws : List (Addr × Byte)) : Memory :=
  ws.foldl (fun n w => n.write w.1 w.2) m

@[simp] theorem writes_nil (m : Memory) : m.writes [] = m := rfl

@[simp] theorem writes_cons (m : Memory) (w : Addr × Byte) (ws : List (Addr × Byte)) :
    m.writes (w :: ws) = (m.write w.1 w.2).writes ws := rfl

theorem writes_append (m : Memory) (ws ws' : List (Addr × Byte)) : m.writes (ws ++ ws') = (m.writes ws).writes ws' :=
  List.foldl_append

theorem writes_wf {m : Memory} (hm : m.wf) (ws : List (Addr × Byte)) : (m.writes ws).wf := by
  induction ws generalizing m with
  | nil => exact hm
  | cons w ws ih => exact ih (write_wf hm w.1 w.2)

theorem read_writes_of_not_written {m : Memory} (hm : m.wf) {ws : List (Addr × Byte)} {a : Addr}
    (h : ∀ w ∈ ws, w.1 ≠ a) : (m.writes ws).read a = m.read a := by
  induction ws generalizing m with
  | nil => rfl
  | cons w ws ih =>
    obtain ⟨first_elsewhere, rest_elsewhere⟩ := List.forall_mem_cons.1 h
    rw [writes_cons, ih (write_wf hm w.1 w.2) rest_elsewhere, read_write_other hm first_elsewhere.symm]

/-- The last write to a cell, with any writes before it, is what a read of the cell gives. -/
theorem read_writes_of_last_write {m : Memory} (hm : m.wf) (before : List (Addr × Byte)) {after : List (Addr × Byte)}
    {a : Addr} (v : Byte) (h : ∀ w ∈ after, w.1 ≠ a) : (m.writes (before ++ (a, v) :: after)).read a = v := by
  have hbefore : (m.writes before).wf := writes_wf hm before
  rw [writes_append, writes_cons, read_writes_of_not_written (write_wf hbefore a v) h, read_write_same hbefore]

/-- Settles O6: writes after the last one to a cell leave the cell alone. -/
theorem readGivesTheLastByteWritten : Obligations.ReadGivesTheLastByteWritten := by
  unfold Obligations.ReadGivesTheLastByteWritten
  intro m ws a hm
  refine ⟨writes_wf hm ws, read_writes_of_not_written hm, ?_⟩
  rintro before after v rfl not_after
  exact read_writes_of_last_write hm before v not_after

/-! ### Which cell a step writes -/

theorem eq_of_store_cell_ne {s : State} (hm : s.mem.wf) {a b : Addr} {v : Byte}
    (h : (s.store b v).cell a ≠ s.cell a) : a = b := by
  by_contra hab
  exact h (read_write_other hm hab v)

/-- An instruction changes no cell but the one below SP, if it is a PUSH or CALL, or the one at `x[A]`, if it is an ST
(R34). -/
theorem exec_changed_cell {i : Instr} {s t : State} {a : Addr} (hm : s.mem.wf) (h : exec i s = .next t)
    (changed : t.cell a ≠ s.cell a) :
    ((i.opcode = .push ∨ i.opcode = .call) ∧ a = s.decSp.sp) ∨
    (∃ (b c : Byte) (ra : Reg), i = .st b c ∧ b.toNat = ra.val ∧ a = s.reg ra) := by
  rcases exec_cases i s with ⟨_, _, _, raised⟩ | ⟨_, _, _, _, _, raised⟩ | ⟨_, t', done, effect⟩
  · cases raised.symm.trans h
    exact absurd rfl changed
  · cases raised.symm.trans h
    exact absurd rfl changed
  · cases done.symm.trans h
    cases i with
    | hlt | ret => subst effect; exact absurd rfl changed
    | prn _ | ldi _ _ | pop _ => obtain ⟨_, _, rfl⟩ := effect; exact absurd rfl changed
    | add _ _ | sub _ _ | mul _ _ => obtain ⟨_, _, _, _, rfl⟩ := effect; exact absurd rfl changed
    | push _ =>
      obtain ⟨_, _, rfl⟩ := effect
      exact .inl ⟨.inl rfl, eq_of_store_cell_ne (s := s.decSp) hm changed⟩
    | call _ =>
      obtain ⟨_, _, _, rfl⟩ := effect
      exact .inl ⟨.inr rfl, eq_of_store_cell_ne (s := s.decSp) hm changed⟩
    | st b c =>
      obtain ⟨ra, _, hra, _, rfl⟩ := effect
      exact .inr ⟨b, c, ra, rfl, hra, eq_of_store_cell_ne hm changed⟩

/-- A step that gives a next state has raised a fault, or has run the instruction whose bytes stand at `pc` (R64). -/
theorem engineStep_raised_or_ran {s t : State} (h : engineStep s = .next t) :
    (∃ r, t = s.raise r) ∨ ∃ i, s.BytesAt s.pc (encode i) ∧ exec i s = .next t := by
  rcases engineStep_cases s with
    ⟨_, raised⟩ | ⟨_, _, _, raised⟩ | ⟨_, _, _, _, _, _, raised⟩ | ⟨i, bytes, _, ran⟩
  · exact .inl ⟨_, Host.Outcome.next.inj (h.symm.trans raised)⟩
  · exact .inl ⟨_, Host.Outcome.next.inj (h.symm.trans raised)⟩
  · exact .inl ⟨_, Host.Outcome.next.inj (h.symm.trans raised)⟩
  · exact .inr ⟨i, bytes, ran.symm.trans h⟩

/-- Settles O26: raising a fault changes no cell, and an instruction that runs has its bytes at `pc`. -/
theorem onlyPushCallAndStWriteMemory : Obligations.OnlyPushCallAndStWriteMemory := by
  unfold Obligations.OnlyPushCallAndStWriteMemory
  intro s t a hm h changed
  obtain ⟨_, _, hstep⟩ := live_of_step h
  rcases engineStep_raised_or_ran hstep with ⟨r, rfl⟩ | ⟨i, bytes, ran⟩
  · exact absurd rfl changed
  · have byte_at_pc : ∀ o, i.opcode = o → s.mem.read? s.pc = some o.byte :=
      fun _ ho => ho ▸ bytes 0 (Nat.succ_pos _)
    rcases exec_changed_cell hm ran changed with ⟨hi, below_sp⟩ | ⟨b, c, ra, rfl, hra, at_ra⟩
    · exact .inl ⟨hi.imp (byte_at_pc .push) (byte_at_pc .call), below_sp⟩
    · exact .inr ⟨b, c, ra, bytes, hra, at_ra⟩

/-! ### The next fetch -/

theorem head?_fetch (m : Memory) (p : Nat) : (fetch m p).head? = m.read? p := by
  cases h : m.read? p <;> simp [fetch, h]

theorem read?_toNat (m : Memory) (a : Addr) : m.read? a.toNat = some (m.read a) := by
  rw [read?_eq_some a.isLt, BitVec.ofNat_toNat, BitVec.setWidth_eq]

/-- What a store leaves at its own address is the opcode byte of a fetch there. -/
theorem head?_fetch_store {s : State} (hm : s.mem.wf) {a : Addr} {p : Nat} (v : Byte) (hp : p = a.toNat) :
    (fetch (s.store a v).mem p).head? = some v := by
  rw [hp, head?_fetch, read?_toNat, store_mem, read_write_same hm]

theorem exec_st_of_eq {s : State} {a b : Byte} {ra rb : Reg} (ha : a.toNat = ra.val) (hb : b.toNat = rb.val) :
    exec (.st a b) s = .next ((s.store (s.reg ra) (s.reg rb)).setPc (s.pc + 3)) :=
  (withReg_of_eq ha).trans (withReg_of_eq hb)

theorem exec_push_of_eq {s : State} {a : Byte} {ra : Reg} (ha : a.toNat = ra.val) :
    exec (.push a) s = .next ((s.decSp.store s.decSp.sp (s.decSp.reg ra)).setPc (s.pc + 2)) :=
  withReg_of_eq ha

theorem exec_call_of_eq {s : State} {a : Byte} {ra : Reg} (ha : a.toNat = ra.val) (hp : s.pc + 2 < Config.memSize) :
    exec (.call a) s =
      .next ((s.decSp.store s.decSp.sp (BitVec.ofNat 8 (s.pc + 2))).setPc (s.decSp.reg ra).toNat) :=
  (withReg_of_eq ha).trans (if_neg (Nat.not_le.2 hp))

/-- Settles O28: each of the three instructions ends in one store, whose address is the next `pc`. -/
theorem nextFetchSeesTheStore : Obligations.NextFetchSeesTheStore := by
  unfold Obligations.NextFetchSeesTheStore
  refine ⟨fun s t a b ra rb hm ha hb h hp => ?_, fun s t a ra hm ha h hp => ?_, fun s t a ra hm ha hret h hp => ?_⟩
  · cases (exec_st_of_eq ha hb).symm.trans h
    exact head?_fetch_store hm _ hp
  · cases (exec_push_of_eq ha).symm.trans h
    exact head?_fetch_store (s := s.decSp) hm _ hp
  · cases (exec_call_of_eq ha hret).symm.trans h
    exact head?_fetch_store (s := s.decSp) hm _ hp

end Sys2Proof.Machine
end

