-- ==== Sys2Proof/Proofs/MemoryReads.lean ====
section
/-! A step reads no cell but those of R34: two states that are alike but for one cell stay so under every state operation
whose arguments do not come from that cell, hence under every instruction and every step. -/

namespace Sys2Proof.Machine

/-! ### States alike but for one cell -/

/-- Two states with canonical memories that differ in no element of R31 but the cell at `c`. -/
structure AlikeButForCell (c : Addr) (s s' : State) : Prop where
  wf : s.mem.wf
  wf' : s'.mem.wf
  regs : s'.regs = s.regs
  pc : s'.pc = s.pc
  control : SameControl s s'
  cells : SameCellsExcept [c] s s'

namespace AlikeButForCell

variable {c : Addr} {s s' : State}

theorem store_left {s : State} (hm : s.mem.wf) (c : Addr) (v : Byte) : AlikeButForCell c s (s.store c v) where
  wf := hm
  wf' := write_wf hm c v
  regs := rfl
  pc := rfl
  control := ⟨rfl, rfl, rfl⟩
  cells _ ha := read_write_other hm (by simpa using ha) v

theorem reg (h : AlikeButForCell c s s') (r : Reg) : s'.reg r = s.reg r :=
  congrArg (fun x : Vector Byte 8 => x[r]) h.regs

theorem sp (h : AlikeButForCell c s s') : s'.sp = s.sp := h.reg Config.spIndex

theorem cell (h : AlikeButForCell c s s') {a : Addr} (ha : c ≠ a) : s'.cell a = s.cell a :=
  h.cells a (by simpa using ha.symm)

theorem cell_sp (h : AlikeButForCell c s s') (hc : c ≠ s.sp) : s'.cell s'.sp = s.cell s.sp := by
  rw [h.sp, h.cell hc]

theorem setReg (h : AlikeButForCell c s s') (r : Reg) {v v' : Byte} (hv : v' = v) :
    AlikeButForCell c (s.setReg r v) (s'.setReg r v') :=
  { h with regs := by rw [State.setReg, State.setReg, h.regs, hv] }

theorem decSp (h : AlikeButForCell c s s') : AlikeButForCell c s.decSp s'.decSp :=
  h.setReg Config.spIndex (congrArg (· - 1) h.sp)

theorem incSp (h : AlikeButForCell c s s') : AlikeButForCell c s.incSp s'.incSp :=
  h.setReg Config.spIndex (congrArg (· + 1) h.sp)

theorem setPc (h : AlikeButForCell c s s') {p p' : Nat} (hp : p' = p) :
    AlikeButForCell c (s.setPc p) (s'.setPc p') :=
  { h with pc := hp }

theorem setRunning (h : AlikeButForCell c s s') (b : Bool) :
    AlikeButForCell c (s.setRunning b) (s'.setRunning b) :=
  let ⟨_, hfault, hout⟩ := h.control
  { h with control := ⟨rfl, hfault, hout⟩ }

theorem emit (h : AlikeButForCell c s s') {v v' : Byte} (hv : v' = v) :
    AlikeButForCell c (s.emit v) (s'.emit v') :=
  let ⟨hrun, hfault, hout⟩ := h.control
  { h with control := ⟨hrun, hfault, by rw [emit_out, emit_out, hout, hv]⟩ }

theorem raise (h : AlikeButForCell c s s') {r r' : FaultRecord} (hr : r' = r) :
    AlikeButForCell c (s.raise r) (s'.raise r') :=
  let ⟨hrun, _, hout⟩ := h.control
  { h with control := ⟨hrun, congrArg some hr, hout⟩ }

theorem store (h : AlikeButForCell c s s') {a a' : Addr} {v v' : Byte} (ha : a' = a) (hv : v' = v) :
    AlikeButForCell c (s.store a v) (s'.store a' v') where
  wf := write_wf h.wf a v
  wf' := write_wf h.wf' a' v'
  regs := h.regs
  pc := h.pc
  control := h.control
  cells b hb := by rw [store_cell h.wf, store_cell h.wf', ha, hv, h.cells b hb]

end AlikeButForCell

/-! ### Instructions -/

/-- Both answer a next state, and the two next states are alike but for the cell at `c`. -/
def BothNextAlike (c : Addr) (x x' : Result) : Prop :=
  ∃ t t', x = .next t ∧ x' = .next t' ∧ AlikeButForCell c t t'

theorem AlikeButForCell.next {c : Addr} {t t' : State} (h : AlikeButForCell c t t') :
    BothNextAlike c (.next t) (.next t') :=
  ⟨t, t', rfl, rfl, h⟩

variable {c : Addr} {s s' : State}

theorem withReg_alike (h : AlikeButForCell c s s') (i : Instr) (a : Byte) {k k' : Reg → Result}
    (hk : ∀ r, BothNextAlike c (k r) (k' r)) : BothNextAlike c (withReg i a s k) (withReg i a s' k') := by
  by_cases ha : a.toNat < Config.nregs
  · rw [withReg_of_eq (r := ⟨a.toNat, ha⟩) rfl, withReg_of_eq (r := ⟨a.toNat, ha⟩) rfl]
    exact hk _
  · rw [withReg_of_ge (Nat.not_lt.1 ha), withReg_of_ge (Nat.not_lt.1 ha)]
    exact (h.raise (by rw [h.pc])).next

theorem execAlu_alike (h : AlikeButForCell c s s') (op : AluOp) (i : Instr) (a b : Byte) :
    BothNextAlike c (execAlu op i a b s) (execAlu op i a b s') :=
  withReg_alike h i a fun ra => withReg_alike h i b fun rb =>
    ((h.setReg ra (congrArg₂ (alu op) (h.reg ra) (h.reg rb))).setPc (congrArg (· + 3) h.pc)).next

theorem execCall_alike (h : AlikeButForCell c s s') (a : Byte) :
    BothNextAlike c (execCall a s) (execCall a s') := by
  refine withReg_alike h (.call a) a fun ra => ?_
  simp only [h.pc]
  split
  · exact (h.raise rfl).next
  · exact ((h.decSp.store h.decSp.sp rfl).setPc (congrArg BitVec.toNat (h.decSp.reg ra))).next

/-- An instruction reads no cell but, for POP and RET, the one at SP (R34). -/
theorem exec_alike (h : AlikeButForCell c s s') (i : Instr)
    (hsp : i.opcode = .pop ∨ i.opcode = .ret → c ≠ s.sp) : BothNextAlike c (exec i s) (exec i s') := by
  cases i with
  | hlt => exact ((h.setRunning false).setPc (congrArg (· + 1) h.pc)).next
  | prn a =>
    exact withReg_alike h _ a fun ra => ((h.emit (h.reg ra)).setPc (congrArg (· + 2) h.pc)).next
  | ldi a imm => exact withReg_alike h _ a fun ra => ((h.setReg ra rfl).setPc (congrArg (· + 3) h.pc)).next
  | push a =>
    exact withReg_alike h _ a fun ra =>
      ((h.decSp.store h.decSp.sp (h.decSp.reg ra)).setPc (congrArg (· + 2) h.pc)).next
  | pop a =>
    have popped : s'.cell s'.sp = s.cell s.sp := h.cell_sp (hsp (.inl rfl))
    exact withReg_alike h _ a fun ra => ((h.setReg ra popped).incSp.setPc (congrArg (· + 2) h.pc)).next
  | call a => exact execCall_alike h a
  | ret =>
    have popped : s'.cell s'.sp = s.cell s.sp := h.cell_sp (hsp (.inr rfl))
    exact (h.incSp.setPc (congrArg BitVec.toNat popped)).next
  | add a b | sub a b | mul a b => exact execAlu_alike h _ _ a b
  | st a b =>
    exact withReg_alike h _ a fun ra => withReg_alike h _ b fun rb =>
      ((h.store (h.reg ra) (h.reg rb)).setPc (congrArg (· + 3) h.pc)).next

/-! ### Fetch -/

theorem AlikeButForCell.read? (h : AlikeButForCell c s s') {a : Nat} (ha : c.toNat ≠ a) :
    s'.mem.read? a = s.mem.read? a := by
  by_cases hlt : a < Config.memSize
  · have other : c ≠ BitVec.ofNat 8 a := fun e => ha (by rw [e, BitVec.toNat_ofNat, Nat.mod_eq_of_lt hlt])
    rw [read?_eq_some hlt, read?_eq_some hlt]
    exact congrArg some (h.cell other)
  · rw [(read?_eq_none_iff _ a).2 (Nat.not_lt.1 hlt), (read?_eq_none_iff _ a).2 (Nat.not_lt.1 hlt)]

/-- Whether there is a cell at an address does not depend on what the memory holds (R36). -/
theorem read?_eq_none_of_read?_eq_none {m : Memory} (m' : Memory) {a : Nat} (h : m.read? a = none) :
    m'.read? a = none :=
  (read?_eq_none_iff m' a).2 ((read?_eq_none_iff m a).1 h)

theorem fetchOperands_alike (h : AlikeButForCell c s s') (a n : Nat)
    (hc : ∀ k, k < (fetchOperands s.mem a n).length → c.toNat ≠ a + k) :
    fetchOperands s'.mem a n = fetchOperands s.mem a n := by
  induction n generalizing a with
  | zero => rfl
  | succ n ih =>
    cases hread : s.mem.read? a with
    | none =>
      simp only [fetchOperands, hread, read?_eq_none_of_read?_eq_none s'.mem hread]
    | some b =>
      simp only [fetchOperands, hread, List.length_cons] at hc ⊢
      have hread' : s'.mem.read? a = some b := (h.read? (hc 0 (Nat.succ_pos _))).trans hread
      have rest : fetchOperands s'.mem (a + 1) n = fetchOperands s.mem (a + 1) n :=
        ih (a + 1) fun k hk => by rw [Nat.add_right_comm]; exact hc (k + 1) (Nat.succ_lt_succ hk)
      simp only [hread', rest]

/-- A cell that is none of the bytes fetched does not decide what is fetched (R68). -/
theorem fetch_alike (h : AlikeButForCell c s s') (p : Nat)
    (hc : ∀ k, k < (fetch s.mem p).length → c.toNat ≠ p + k) : fetch s'.mem p = fetch s.mem p := by
  cases hread : s.mem.read? p with
  | none =>
    simp only [fetch, hread, read?_eq_none_of_read?_eq_none s'.mem hread]
  | some op =>
    simp only [fetch, hread, List.length_cons] at hc ⊢
    have hread' : s'.mem.read? p = some op := (h.read? (hc 0 (Nat.succ_pos _))).trans hread
    have operands : fetchOperands s'.mem (p + 1) (operandCount op) = fetchOperands s.mem (p + 1) (operandCount op) :=
      fetchOperands_alike h (p + 1) _ fun k hk => by rw [Nat.add_right_comm]; exact hc (k + 1) (Nat.succ_lt_succ hk)
    simp only [hread', operands]

/-! ### Steps -/

/-- The opcode byte at `pc` is that of the instruction the fetched bytes decode to. -/
theorem read?_of_decode_fetch {m : Memory} {p : Nat} {i : Instr} {rest : List Byte}
    (h : decode (fetch m p) = .ok (i, rest)) : m.read? p = some i.opcode.byte := by
  rw [← head?_fetch]
  cases hf : fetch m p with
  | nil => rw [hf] at h; cases h
  | cons op bs =>
    rw [hf] at h
    rcases decode_cases op bs with ⟨_, hd⟩ | ⟨_, _, hop, _, hd⟩ | ⟨_, _, _, hd⟩ <;> cases hd.symm.trans h
    exact congrArg some hop

theorem engineStep_alike (h : AlikeButForCell c s s')
    (hfetch : ∀ k, k < (fetch s.mem s.pc).length → c.toNat ≠ s.pc + k)
    (hsp : s.mem.read? s.pc = some 0x46#8 ∨ s.mem.read? s.pc = some 0x11#8 → c ≠ s.sp) :
    BothNextAlike c (engineStep s) (engineStep s') := by
  have same_bytes : fetch s'.mem s'.pc = fetch s.mem s.pc := h.pc ▸ fetch_alike h s.pc hfetch
  cases hd : decode (fetch s.mem s.pc) with
  | error e =>
    simp only [engineStep, same_bytes, hd]
    exact (h.raise (by rw [h.pc])).next
  | ok decoded =>
    obtain ⟨i, rest⟩ := decoded
    simp only [engineStep, same_bytes, hd]
    have opcode_at_pc : s.mem.read? s.pc = some i.opcode.byte := read?_of_decode_fetch hd
    refine exec_alike h i fun hi => hsp (hi.imp (fun ho => ?_) (fun ho => ?_))
    · rw [opcode_at_pc, ho]; rfl
    · rw [opcode_at_pc, ho]; rfl

/-- Settles O27: the two states are alike but for the stored cell, and a step keeps them so. -/
theorem stepReadsOnlyTheListedCells : Obligations.StepReadsOnlyTheListedCells := by
  unfold Obligations.StepReadsOnlyTheListedCells
  intro s c v hm ⟨running, no_fault⟩ hfetch hsp
  have alike : AlikeButForCell c s (s.store c v) := .store_left hm c v
  obtain ⟨t, t', ht, ht', after⟩ := engineStep_alike alike hfetch hsp
  exact ⟨t, t', (step_of_live running no_fault).trans ht,
    (step_of_live (s := s.store c v) running no_fault).trans ht', after.regs, after.pc, after.control, after.cells⟩

end Sys2Proof.Machine
end

