-- ==== Sys2Proof/Proofs/Encoding.lean ====
section
/-! The statements about the opcode table of 30_encoding.md: an instruction's length comes from its opcode byte (R51), and
a byte outside the table is illegal (R55, R66). -/

namespace Sys2Proof

/-! ### The table and the decoder -/

theorem opcode_byte_injective : Function.Injective Opcode.byte := fun o o' h =>
  Option.some_injective _ (by rw [← ofByte?_byte o, h, ofByte?_byte])

theorem ofByte?_eq_none_iff {op : Byte} : Opcode.ofByte? op = none ↔ ∀ o : Opcode, op ≠ o.byte := by
  constructor
  · rintro h o rfl
    simp at h
  · intro h
    by_contra found
    obtain ⟨o, ho⟩ := Option.ne_none_iff_exists'.1 found
    exact h o (byte_of_ofByte? ho)

theorem Opcode.arity_le_two (o : Opcode) : o.arity ≤ 2 := by
  cases o <;> decide

theorem Opcode.len_le_three (o : Opcode) : o.len ≤ 3 :=
  Nat.add_le_add_left o.arity_le_two 1

/-- Every row of the table has an instruction: two operand bytes are enough to make one. -/
theorem exists_instr_of_opcode (o : Opcode) : ∃ i : Instr, i.opcode = o := by
  rcases withOperands_cases o [0, 0] with ⟨i, _, _, hi, _⟩ | ⟨_, too_few⟩
  · exact ⟨i, hi⟩
  · exact absurd too_few (Nat.not_lt.2 o.arity_le_two)

theorem decode_of_ofByte?_eq_none {op : Byte} (h : Opcode.ofByte? op = none) (bs : List Byte) :
    decode (op :: bs) = .error (.illegalOpcode op) := by
  simp only [decode, h]

/-- What is decoded is the encoding that the bytes begin with. -/
theorem eq_encode_append_of_decode {op : Byte} {bs rest : List Byte} {i : Instr}
    (h : decode (op :: bs) = .ok (i, rest)) : op :: bs = encode i ++ rest := by
  rcases decode_cases op bs with ⟨_, hd⟩ | ⟨_, _, rfl, rfl, hd⟩ | ⟨_, _, _, hd⟩ <;> cases hd.symm.trans h
  rfl

theorem opcode_byte_of_decode {op : Byte} {bs rest : List Byte} {i : Instr}
    (h : decode (op :: bs) = .ok (i, rest)) : op = i.opcode.byte :=
  (List.cons.inj (eq_encode_append_of_decode h)).1

theorem ofByte?_eq_none_of_starts_no_encoding {op : Byte} (h : ∀ i : Instr, (encode i).head? ≠ some op) :
    Opcode.ofByte? op = none := by
  rw [ofByte?_eq_none_iff]
  rintro o rfl
  obtain ⟨i, rfl⟩ := exists_instr_of_opcode o
  exact h i rfl

/-- The 245 values of R55, as its ranges. -/
abbrev OutsideOpcodeTable (n : Nat) : Prop :=
  n = 0x00 ∨ (0x02 ≤ n ∧ n ≤ 0x10) ∨ (0x12 ≤ n ∧ n ≤ 0x44) ∨ (0x48 ≤ n ∧ n ≤ 0x4F) ∨ (0x51 ≤ n ∧ n ≤ 0x65) ∨
    (0x67 ≤ n ∧ n ≤ 0x81) ∨ n = 0x83 ∨ (0x85 ≤ n ∧ n ≤ 0x9F) ∨ n = 0xA1 ∨ 0xA3 ≤ n

theorem not_outsideOpcodeTable_byte (o : Opcode) : ¬ OutsideOpcodeTable o.byte.toNat := by
  cases o <;> decide

theorem ofByte?_eq_none_of_outside {op : Byte} (h : OutsideOpcodeTable op.toNat) : Opcode.ofByte? op = none := by
  rw [ofByte?_eq_none_iff]
  rintro o rfl
  exact not_outsideOpcodeTable_byte o h

end Sys2Proof

namespace Sys2Proof.Machine

/-- Settles O3: the opcode byte decides the opcode, because no two rows of the table share a byte, and the opcode decides
the length. -/
theorem lengthFromOpcodeByteAlone : Obligations.LengthFromOpcodeByteAlone := by
  unfold Obligations.LengthFromOpcodeByteAlone
  refine ⟨fun op xs ys rest rest' i j hi hj => ?_, fun i => ⟨?_, ?_⟩, fun op xs h => ?_⟩
  · have same_opcode : i.opcode = j.opcode :=
      opcode_byte_injective ((opcode_byte_of_decode hi).symm.trans (opcode_byte_of_decode hj))
    refine ⟨same_opcode, by rw [encode_length, encode_length, same_opcode], ?_⟩
    rw [eq_encode_append_of_decode hi, List.length_append]
  · rw [encode_length, operands_length, Opcode.len]
  · rw [encode_length]
    exact i.opcode.len_le_three
  · exact decode_of_ofByte?_eq_none (ofByte?_eq_none_of_starts_no_encoding h) xs

/-! ### Illegal opcode bytes at `pc` -/

/-- After an illegal opcode byte no operand is fetched (R66). -/
theorem fetch_of_illegal {m : Memory} {p : Nat} {op : Byte} (hread : m.read? p = some op)
    (hop : Opcode.ofByte? op = none) : fetch m p = [op] := by
  simp only [fetch, hread, operandCount, hop, fetchOperands]

theorem engineStep_of_illegal {s : State} {op : Byte} (hread : s.mem.read? s.pc = some op)
    (hop : Opcode.ofByte? op = none) : engineStep s = .next (s.raise (illegalInstructionRecord s.pc op)) := by
  simp only [engineStep, fetch_of_illegal hread hop, decode_of_ofByte?_eq_none hop, decodeFault]

/-- An instruction leaves the latch alone or raises an out-of-bounds fault, whichever instruction it is. -/
theorem fault_of_exec {i : Instr} {s t : State} (h : exec i s = .next t) :
    t.fault = s.fault ∨ ∃ r k, t.fault = some r ∧ r.kind = .outOfBoundsAccess k := by
  rcases exec_cases i s with ⟨_, _, _, raised⟩ | ⟨_, _, _, _, _, raised⟩ | ⟨_, t', done, effect⟩
  · cases raised.symm.trans h
    exact .inr ⟨_, _, rfl, rfl⟩
  · cases raised.symm.trans h
    exact .inr ⟨_, _, rfl, rfl⟩
  · cases done.symm.trans h
    refine .inl ?_
    cases i with
    | hlt | ret => subst effect; rfl
    | prn _ | ldi _ _ | push _ | pop _ => obtain ⟨_, _, rfl⟩ := effect; rfl
    | call _ => obtain ⟨_, _, _, rfl⟩ := effect; rfl
    | add _ _ | sub _ _ | mul _ _ | st _ _ => obtain ⟨_, _, _, _, rfl⟩ := effect; rfl

/-- The record a step latches is of an illegal opcode byte at `pc`, or is out of bounds (R92). -/
theorem kind_of_step_fault {s t : State} {r : FaultRecord} (h : step s = .next t) (hr : t.fault = some r) :
    (r.kind = .illegalInstruction ∧ ∃ op, s.mem.read? s.pc = some op ∧ Opcode.ofByte? op = none) ∨
    ∃ k, r.kind = .outOfBoundsAccess k := by
  obtain ⟨_, no_fault, hstep⟩ := live_of_step h
  rcases engineStep_cases s with
    ⟨_, raised⟩ | ⟨op, hread, hop, raised⟩ | ⟨_, _, _, _, _, _, raised⟩ | ⟨i, _, _, ran⟩
  · cases raised.symm.trans hstep
    cases hr
    exact .inr ⟨_, rfl⟩
  · cases raised.symm.trans hstep
    cases hr
    exact .inl ⟨rfl, op, hread, hop⟩
  · cases raised.symm.trans hstep
    cases hr
    exact .inr ⟨_, rfl⟩
  · rcases fault_of_exec (ran.symm.trans hstep) with kept | ⟨r', k, latched, out_of_bounds⟩
    · cases hr.symm.trans (kept.trans no_fault)
    · cases hr.symm.trans latched
      exact .inr ⟨k, out_of_bounds⟩

theorem kind_ne_illegal_of_opcode_at_pc {s t : State} {r : FaultRecord} {o : Opcode}
    (hread : s.mem.read? s.pc = some o.byte) (h : step s = .next t) (hr : t.fault = some r) :
    r.kind ≠ .illegalInstruction := by
  intro illegal
  rcases kind_of_step_fault h hr with ⟨_, op, hread', hop⟩ | ⟨k, out_of_bounds⟩
  · cases hread.symm.trans hread'
    exact ofByte?_eq_none_iff.1 hop o rfl
  · cases illegal.symm.trans out_of_bounds

/-- Settles O31: the ranges hold no byte of the table, so the lookup fails on them; the list is the table's column of
bytes, and only a failed lookup raises `IllegalInstruction`. -/
theorem everyOtherOpcodeByteIsIllegal : Obligations.EveryOtherOpcodeByteIsIllegal := by
  unfold Obligations.EveryOtherOpcodeByteIsIllegal
  intro s op ⟨running, no_fault⟩ hread
  refine ⟨fun outside => ?_, fun listed t r h hr => ?_⟩
  · have not_found : Opcode.ofByte? op = none := ofByte?_eq_none_of_outside outside
    exact ⟨(step_of_live running no_fault).trans (engineStep_of_illegal hread not_found),
      fetch_of_illegal hread not_found⟩
  · have in_table : op ∈ Opcode.all.map Opcode.byte := listed
    obtain ⟨o, _, rfl⟩ := List.mem_map.1 in_table
    exact kind_ne_illegal_of_opcode_at_pc hread h hr

end Sys2Proof.Machine
end

