-- ==== Sys2Proof/Proofs/Engine.lean ====
section
/-! The statements about one step of 40_execution_engine.md: the fetch of the opcode byte (R65) and of the operand bytes
(R69), the instruction that a step runs (R64, R72), and the check of its register operands (R70). -/

namespace Sys2Proof.Machine

/-! ### The bytes at an address -/

/-- Bytes stand at `p` when the first stands there and the others at `p + 1`. -/
theorem bytesAt_cons {s : State} {p : Nat} {b : Byte} {bs : List Byte} :
    s.BytesAt p (b :: bs) ↔ s.mem.read? p = some b ∧ s.BytesAt (p + 1) bs := by
  constructor
  · intro h
    refine ⟨h 0 (Nat.succ_pos _), fun k hk => ?_⟩
    rw [Nat.add_right_comm]
    exact h (k + 1) (Nat.succ_lt_succ hk)
  · rintro ⟨first, others⟩ k hk
    cases k with
    | zero => exact first
    | succ k =>
      have next := others k (Nat.lt_of_succ_lt_succ hk)
      rwa [Nat.add_right_comm] at next

theorem bytesAt_nil (s : State) (p : Nat) : s.BytesAt p [] := nofun

/-! ### Fetch beyond the end of memory -/

theorem fetch_of_ge {m : Memory} {p : Nat} (h : Config.memSize ≤ p) : fetch m p = [] := by
  simp only [fetch, (read?_eq_none_iff m p).2 h]

theorem engineStep_of_ge {s : State} (h : Config.memSize ≤ s.pc) :
    engineStep s = .next (s.raise (fetchAddressRecord s.pc)) := by
  simp only [engineStep, fetch_of_ge h, decode, decodeFault]

/-- Settles O32: the first fetched byte is the cell at `pc`, and beyond the cells nothing is fetched to decode. -/
theorem fetchBeyondMemoryFaults : Obligations.FetchBeyondMemoryFaults := by
  unfold Obligations.FetchBeyondMemoryFaults
  intro s ⟨running, no_fault⟩
  refine ⟨fun below => ?_, fun beyond => (step_of_live running no_fault).trans (engineStep_of_ge beyond)⟩
  rw [head?_fetch, read?_eq_some below]
  rfl

/-- Operand fetch stops at the end of memory with the bytes it has (R69). -/
theorem fetchOperands_of_end {s : State} {a n : Nat} {got : List Byte} (bytes : s.BytesAt a got)
    (few : got.length ≤ n) (at_end : Config.memSize ≤ a + got.length) : fetchOperands s.mem a n = got := by
  induction got generalizing a n with
  | nil =>
    have no_cell : s.mem.read? a = none := (read?_eq_none_iff _ _).2 at_end
    cases n <;> simp only [fetchOperands, no_cell]
  | cons b bs ih =>
    obtain ⟨first, others⟩ := bytesAt_cons.1 bytes
    rw [List.length_cons] at few at_end
    obtain ⟨n, rfl⟩ : ∃ n', n = n' + 1 := ⟨n - 1, by omega⟩
    simp only [fetchOperands, first, ih others (Nat.le_of_succ_le_succ few) (by omega)]

theorem decode_of_too_few {o : Opcode} {got : List Byte} (few : got.length < o.arity) :
    decode (o.byte :: got) = .error (.missingOperand o.byte got) := by
  rcases decode_cases o.byte got with ⟨not_found, _⟩ | ⟨i, rest, same_byte, rfl, _⟩ | ⟨_, _, _, missing⟩
  · simp at not_found
  · rw [opcode_byte_injective same_byte, List.length_append, operands_length] at few
    omega
  · exact missing

theorem engineStep_of_missing_operand {s : State} {o : Opcode} {got : List Byte}
    (bytes : s.BytesAt s.pc (o.byte :: got)) (few : got.length < o.arity)
    (at_end : Config.memSize ≤ s.pc + 1 + got.length) :
    engineStep s = .next (s.raise (operandAddressRecord s.pc o.byte got)) := by
  obtain ⟨opcode_at_pc, operands⟩ := bytesAt_cons.1 bytes
  have fetched : fetch s.mem s.pc = o.byte :: got := by
    simp only [fetch, opcode_at_pc, operandCount, ofByte?_byte, fetchOperands_of_end operands few.le at_end]
  simp only [engineStep, fetched, decode_of_too_few few, decodeFault]

theorem step_of_missing_operand {s : State} {p : Nat} {o : Opcode} {got : List Byte} (live : s.Live) (hpc : s.pc = p)
    (bytes : s.BytesAt p (o.byte :: got)) (few : got.length < o.arity) (at_end : Config.memSize ≤ p + 1 + got.length) :
    step s = .next (s.raise (operandAddressRecord p o.byte got)) := by
  subst hpc
  exact (step_of_live live.1 live.2).trans (engineStep_of_missing_operand bytes few at_end)

/-- Settles O33: the fetched bytes are the opcode byte and the operand bytes below 256, too few for the opcode; the two
examples are PRN with no operand byte and LDI with one. -/
theorem operandBeyondMemoryFaults : Obligations.OperandBeyondMemoryFaults := by
  unfold Obligations.OperandBeyondMemoryFaults
  refine ⟨fun o s got live bytes few at_end => step_of_missing_operand live rfl bytes few at_end,
    fun s live hpc hop => ?_, fun s b live hpc hop hb => ?_⟩
  · have bytes : s.BytesAt 255 [Opcode.prn.byte] := bytesAt_cons.2 ⟨hop, bytesAt_nil s _⟩
    exact step_of_missing_operand live hpc bytes Nat.zero_lt_one (Nat.le_refl 256)
  · have bytes : s.BytesAt 254 [Opcode.ldi.byte, b] := bytesAt_cons.2 ⟨hop, bytesAt_cons.2 ⟨hb, bytesAt_nil s _⟩⟩
    exact step_of_missing_operand live hpc bytes Nat.one_lt_two (Nat.le_refl 256)

/-! ### The instruction at `pc` -/

theorem decode_encode (i : Instr) : decode (encode i) = .ok (i, []) := by
  cases i <;> rfl

theorem step_of_bytesAt {s : State} {i : Instr} (live : s.Live) (bytes : s.BytesAt s.pc (encode i)) :
    step s = exec i s :=
  (step_of_live live.1 live.2).trans (engineStep_of_bytes bytes (decode_encode i))

/-- Settles O19: an encoding decodes to its instruction. -/
theorem stepRunsTheInstructionAtPc : Obligations.StepRunsTheInstructionAtPc := by
  unfold Obligations.StepRunsTheInstructionAtPc
  exact fun _ _ => step_of_bytesAt

/-! ### The register check -/

/-- One register check of a handler raises for the first bad operand of `a :: as`, if the checks after it do so for `as`. -/
theorem withReg_of_first_bad {i : Instr} {s : State} {k : Reg → Result} {a v : Byte} {as : List Byte}
    (first_bad : (a :: as).find? (fun r => 8 ≤ r.toNat) = some v)
    (later : ∀ r, as.find? (fun r => 8 ≤ r.toNat) = some v → k r = .next (s.raise (registerIndexRecord s.pc i v))) :
    withReg i a s k = .next (s.raise (registerIndexRecord s.pc i v)) := by
  rcases withReg_cases (i := i) (a := a) (s := s) (k := k) with ⟨bad, raised⟩ | ⟨r, good, goes_on⟩
  · rw [List.find?_cons_of_pos (by simpa using bad)] at first_bad
    cases first_bad
    exact raised
  · rw [List.find?_cons_of_neg (by simp [good])] at first_bad
    exact goes_on.trans (later r first_bad)

/-- The handlers check the register operands in order, `A` before `B` (R70). -/
theorem exec_of_first_bad {i : Instr} {s : State} {v : Byte}
    (first_bad : i.regOperands.find? (fun r => 8 ≤ r.toNat) = some v) :
    exec i s = .next (s.raise (registerIndexRecord s.pc i v)) := by
  cases i with
  | hlt | ret => cases first_bad
  | prn a | ldi a imm | push a | pop a | call a => exact withReg_of_first_bad first_bad nofun
  | add a b | sub a b | mul a b | st a b =>
    exact withReg_of_first_bad first_bad fun _ second_bad => withReg_of_first_bad second_bad nofun

/-- An instruction raises one of its two faults, or its register operands are good and it completes: it keeps the latch, and
the output history too unless it is a PRN (R27, R95). -/
theorem exec_raised_or_completed {i : Instr} {s t : State} (h : exec i s = .next t) :
    (∃ v ∈ i.regOperands, Config.nregs ≤ v.toNat ∧ t = s.raise (registerIndexRecord s.pc i v)) ∨
    t = s.raise (returnAddressRecord s.pc i (s.pc + 2)) ∨
    (i.WellFormed ∧ t.fault = s.fault ∧ (t.out = s.out ∨ i.opcode = .prn ∧ ∃ v, t.out = s.out ++ [v])) := by
  rcases exec_cases i s with ⟨v, hv, bad, raised⟩ | ⟨_, _, _, _, _, raised⟩ | ⟨well_formed, t', done, effect⟩
  · exact .inl ⟨v, hv, bad, Host.Outcome.next.inj (h.symm.trans raised)⟩
  · exact .inr (.inl (Host.Outcome.next.inj (h.symm.trans raised)))
  · cases done.symm.trans h
    refine .inr (.inr ⟨well_formed, ?_⟩)
    cases i with
    | hlt | ret => subst effect; exact ⟨rfl, .inl rfl⟩
    | prn _ => obtain ⟨_, _, rfl⟩ := effect; exact ⟨rfl, .inr ⟨rfl, _, rfl⟩⟩
    | ldi _ _ | push _ | pop _ => obtain ⟨_, _, rfl⟩ := effect; exact ⟨rfl, .inl rfl⟩
    | call _ => obtain ⟨_, _, _, rfl⟩ := effect; exact ⟨rfl, .inl rfl⟩
    | add _ _ | sub _ _ | mul _ _ | st _ _ => obtain ⟨_, _, _, _, rfl⟩ := effect; exact ⟨rfl, .inl rfl⟩

theorem kind_ne_registerIndex_of_wellFormed {i : Instr} {s t : State} {r : FaultRecord} (no_fault : s.fault = none)
    (well_formed : i.WellFormed) (h : exec i s = .next t) (hr : t.fault = some r) :
    r.kind ≠ .outOfBoundsAccess .registerIndex := by
  rcases exec_raised_or_completed h with ⟨v, hv, bad, _⟩ | rfl | ⟨_, kept, _⟩
  · exact absurd (well_formed v hv) (Nat.not_lt.2 bad)
  · cases hr
    nofun
  · cases hr.symm.trans (kept.trans no_fault)

/-- Settles O34: each handler checks its register operands in order before it does anything, and the only other fault of
an instruction is CALL's `RETURN_ADDRESS`. -/
theorem registerIndexIsChecked : Obligations.RegisterIndexIsChecked := by
  unfold Obligations.RegisterIndexIsChecked
  exact ⟨fun _ _ _ live bytes first_bad => (step_of_bytesAt live bytes).trans (exec_of_first_bad first_bad),
    fun _ _ => rfl, fun _ _ _ _ => kind_ne_registerIndex_of_wellFormed⟩

end Sys2Proof.Machine
end

