-- ==== Sys2Proof/Proofs/Runs.lean ====
section
/-! The statements about a RUN of 40_execution_engine.md: its passes (R63, R73), and that it may never end (R74). -/

namespace Sys2Proof.Machine

/-! ### One pass of the loop -/

theorem out_of_step {s t : State} (h : step s = .next t) :
    t.out = s.out ∨ (s.mem.read? s.pc = some 0x47#8 ∧ ∃ v, t.out = s.out ++ [v]) := by
  obtain ⟨_, _, hstep⟩ := live_of_step h
  rcases engineStep_raised_or_ran hstep with ⟨_, rfl⟩ | ⟨i, bytes, ran⟩
  · exact .inl rfl
  · rcases exec_raised_or_completed ran with ⟨_, _, _, rfl⟩ | rfl | ⟨_, _, kept | ⟨is_prn, appended⟩⟩
    · exact .inl rfl
    · exact .inl rfl
    · exact .inl kept
    · have opcode_at_pc : s.mem.read? s.pc = some i.opcode.byte := bytes 0 (Nat.succ_pos _)
      exact .inr ⟨by rw [opcode_at_pc, is_prn]; rfl, appended⟩

/-- A step adds at most one byte to the output history. -/
theorem exists_sent_of_step {s t : State} (h : step s = .next t) :
    ∃ sent, t.out = s.out ++ sent ∧ sent.length ≤ 1 := by
  rcases out_of_step h with kept | ⟨_, v, appended⟩
  · exact ⟨[], by rw [kept, List.append_nil], Nat.zero_le 1⟩
  · exact ⟨[v], appended, Nat.le_refl 1⟩

theorem runResult?_eq_none_iff {s : State} : s.runResult? = none ↔ s.status = .running := by
  cases h : s.status <;> simp [State.runResult?, h]

theorem tick_of_next {s t : State} {sent : List Byte} (h : step s = .next t) (hout : t.out = s.out ++ sent) :
    (Session.mk s true).tick = some (⟨t, true⟩, .stepped sent) := by
  simp [Session.tick, h, hout]

/-- When the loop has a result, the pass returns it and ends the RUN (R102). -/
theorem tick_of_runResult {s : State} {res : RunResult} (h : s.runResult? = some res) :
    (Session.mk s true).tick = some (⟨s, false⟩, .returned res) := by
  cases hs : s.status with
  | running => cases (runResult?_eq_none_iff.2 hs).symm.trans h
  | halted =>
    simp only [State.runResult?, hs, Option.some.injEq] at h
    simp [Session.tick, step_of_status_halted hs, Fault.runResult, h]
  | faulted r =>
    simp only [State.runResult?, hs, Option.some.injEq] at h
    simp [Session.tick, step_of_latched (status_faulted_iff.1 hs), Fault.runResult, h]

/-- Settles O44: a pass is a step while the status is Running, and returns the result in the other two statuses. -/
theorem ticksAreTheRunTransaction : Obligations.TicksAreTheRunTransaction := by
  unfold Obligations.TicksAreTheRunTransaction
  constructor
  · rintro ⟨s, _⟩ rfl
    exact tick_of_closed s
  · rintro ⟨s, _⟩ rfl
    refine ⟨fun no_result => ?_, fun res => tick_of_runResult⟩
    obtain ⟨t, stepped⟩ := status_running_iff_steps.1 (runResult?_eq_none_iff.1 no_result)
    obtain ⟨sent, hout, one⟩ := exists_sent_of_step stepped
    exact ⟨t, sent, stepped, hout, one, tick_of_next stepped hout⟩

/-! ### A RUN without end -/

/-- What every step from a state of `P` keeps holds after any number of steps, and that many happen. -/
theorem exists_run_of_invariant {P : State → Prop} (keeps : ∀ s, P s → ∃ t, step s = .next t ∧ P t)
    (n : Nat) {s : State} (hs : P s) : ∃ t, Sys2Proof.core.run n s = .next t ∧ P t := by
  induction n generalizing s with
  | zero => exact ⟨s, rfl, hs⟩
  | succ n ih =>
    obtain ⟨u, stepped, hu⟩ := keeps s hs
    obtain ⟨t, ran, ht⟩ := ih hu
    exact ⟨t, (run_succ_of_next stepped n).trans ran, ht⟩

/-- A live state whose `pc` names a cell, with RET in every cell. -/
structure LiveAmongRets (s : State) : Prop where
  live : s.Live
  pc_lt : s.pc < Config.memSize
  cells : ∀ a, s.cell a = Opcode.ret.byte

/-- The byte that RET pops is RET's own opcode byte, an address below 256. -/
theorem exists_step_of_liveAmongRets (s : State) (h : LiveAmongRets s) :
    ∃ t, step s = .next t ∧ LiveAmongRets t := by
  have bytes : s.BytesAt s.pc (encode .ret) :=
    bytesAt_cons.2 ⟨(read?_eq_some h.pc_lt).trans (congrArg some (h.cells _)), bytesAt_nil s _⟩
  exact ⟨_, step_of_bytesAt h.live bytes, h.live, (s.cell s.sp).isLt, h.cells⟩

/-- Settles O48: every step is a RET to the address that is RET's own byte, with every cell kept. -/
theorem aRunMayNeverEnd : Obligations.ARunMayNeverEnd := by
  unfold Obligations.ARunMayNeverEnd
  intro s no_fault pc_lt cells n
  obtain ⟨t, ran, ht⟩ := exists_run_of_invariant exists_step_of_liveAmongRets n
    (s := s.beginRun) ⟨⟨rfl, no_fault⟩, pc_lt, cells⟩
  exact ⟨t, ran, runResult?_eq_none_iff.2 (status_running_iff.2 ht.live)⟩

end Sys2Proof.Machine
end

