-- ==== Sys2Proof/Proofs/DataMovement.lean ====
section
/-! The statements about LDI and ST of 42_data_movement.md (R77, R78). The two faults that every instruction rule names, for
a register operand of 8 or more and for an operand byte beyond memory, are stated here for any instruction and any opcode. -/

namespace Sys2Proof.Machine

/-! ### The faults of an instruction rule -/

/-- An instruction raises `REGISTER_INDEX` for the first of its register operands that is 8 or more (R70, R96). -/
theorem raisesRegisterIndex_of_first_bad {i : Instr} {v : Byte}
    (first_bad : i.regOperands.find? (fun r => 8 ≤ r.toNat) = some v) :
    RaisesRegisterIndex i i.opcode.byte i.operands v :=
  fun _ => exec_of_first_bad first_bad

/-- Every opcode raises `OPERAND_ADDRESS` when fewer operand bytes than its arity lie below 256 (R69). -/
theorem raisesOperandAddress (o : Opcode) : RaisesOperandAddress o.byte o.arity :=
  fun _ _ live bytes few at_end => step_of_missing_operand live rfl bytes few at_end

theorem find?_bad_of_first {a : Byte} (bad : 8 ≤ a.toNat) (as : List Byte) :
    (a :: as).find? (fun r => 8 ≤ r.toNat) = some a :=
  List.find?_cons_of_pos (by simpa using bad)

theorem find?_bad_of_second {a b : Byte} (good : a.toNat < 8) (bad : 8 ≤ b.toNat) :
    [a, b].find? (fun r => 8 ≤ r.toNat) = some b := by
  rw [List.find?_cons_of_neg (by simpa using good), find?_bad_of_first bad]

/-! ### LDI -/

theorem exec_ldi_of_eq {s : State} {a : Byte} {ra : Reg} (imm : Byte) (ha : a.toNat = ra.val) :
    exec (.ldi a imm) s = .next ((s.setReg ra imm).setPc (s.pc + 3)) :=
  withReg_of_eq ha

theorem setReg_sameRegsExcept (s : State) (r : Reg) (v : Byte) : SameRegsExcept [r] s (s.setReg r v) :=
  fun _ hr => setReg_reg_other _ _ _ _ (by simpa using hr)

/-- A live state whose `pc` is the first address with no cell latches `FETCH_ADDRESS` (R65). -/
theorem step_of_pc_at_end {s : State} (live : s.Live) (hpc : s.pc = 256) :
    step s = .next (s.raise (fetchAddressRecord 256)) := by
  rw [step_of_live live.1 live.2, engineStep_of_ge hpc.ge, hpc]

/-- Settles O10: LDI writes one register and the advance of `pc`, and from 253 that advance leads past the last cell. -/
theorem ldiFollowsItsRule : Obligations.LdiFollowsItsRule := by
  unfold Obligations.LdiFollowsItsRule
  refine ⟨fun a imm => ⟨rfl, decode_encode (.ldi a imm)⟩, fun s a imm ra ha => ?_,
    fun _ _ bad => raisesRegisterIndex_of_first_bad (find?_bad_of_first bad []), raisesOperandAddress .ldi⟩
  refine ⟨_, exec_ldi_of_eq imm ha, setReg_reg_same s ra imm, rfl, setReg_sameRegsExcept s ra imm, fun _ _ => rfl,
    ⟨rfl, rfl, rfl⟩, fun live hpc => ?_⟩
  exact step_of_pc_at_end live (congrArg (· + 3) hpc)

/-! ### ST -/

/-- Settles O11: ST is one store and the advance of `pc`. Its bytes are fetched before the store, so a step with ST at `pc`
does the same wherever the target lies. -/
theorem stFollowsItsRule : Obligations.StFollowsItsRule := by
  unfold Obligations.StFollowsItsRule
  refine ⟨fun a b => ⟨rfl, decode_encode (.st a b)⟩, fun s a b ra rb hm ha hb => ?_,
    fun _ b bad => raisesRegisterIndex_of_first_bad (find?_bad_of_first bad [b]),
    fun _ _ good bad => raisesRegisterIndex_of_first_bad (find?_bad_of_second good bad), raisesOperandAddress .st⟩
  have ran : exec (.st a b) s = .next ((s.store (s.reg ra) (s.reg rb)).setPc (s.pc + 3)) := exec_st_of_eq ha hb
  have stored : (s.mem.write (s.reg ra) (s.reg rb)).read (s.reg ra) = s.reg rb := read_write_same hm _ _
  exact ⟨_, ran, stored, rfl, fun _ _ => rfl, (AlikeButForCell.store_left hm _ _).cells, ⟨rfl, rfl, rfl⟩,
    fun live bytes => (step_of_bytesAt (i := .st a b) live bytes).trans ran,
    (read?_toNat _ _).trans (congrArg some stored)⟩

end Sys2Proof.Machine
end


-- ==== Sys2Proof/Proofs/Stack.lean ====
section
/-! The statements about PUSH and POP of 43_stack.md (R80 to R82). A PUSH and a POP of the same register come to one store at
the cell below SP: the POP writes the byte that the PUSH read from that register after the decrement, R7 included (D14). -/

namespace Sys2Proof.Machine

/-! ### Writes that put a register back -/

@[simp] theorem setReg_reg_self (s : State) (r : Reg) : s.setReg r (s.reg r) = s :=
  State.ext_elements (fun r' => by rw [setReg_reg]; split <;> simp [*]) rfl rfl rfl rfl rfl

/-- Incrementing SP undoes decrementing it, the wrap at 0 included (R80). -/
@[simp] theorem decSp_incSp (s : State) : s.decSp.incSp = s :=
  calc s.decSp.incSp
    _ = s.setReg Config.spIndex (s.sp - 1 + 1) := by
      simp [State.incSp, State.decSp, State.setReg, State.sp, State.reg]
    _ = s := by rw [BitVec.sub_add_cancel]; exact setReg_reg_self s Config.spIndex

/-! ### POP -/

theorem exec_pop_of_eq {s : State} {a : Byte} {ra : Reg} (ha : a.toNat = ra.val) :
    exec (.pop a) s = .next ((s.setReg ra (s.cell s.sp)).incSp.setPc (s.pc + 2)) :=
  withReg_of_eq ha

/-- Where the cell at SP holds what the register already holds, POP only advances SP and `pc`. -/
theorem exec_pop_of_cell_eq_reg {s : State} {a : Byte} {ra : Reg} (ha : a.toNat = ra.val)
    (unchanged : s.cell s.sp = s.reg ra) : exec (.pop a) s = .next (s.incSp.setPc (s.pc + 2)) := by
  rw [exec_pop_of_eq ha, unchanged, setReg_reg_self]

/-! ### POP after PUSH -/

/-- The state that PUSH leaves; `exec_push_of_eq` says so. -/
def State.pushed (s : State) (ra : Reg) : State :=
  (s.decSp.store s.decSp.sp (s.decSp.reg ra)).setPc (s.pc + 2)

theorem pushed_cell_sp {s : State} (hm : s.mem.wf) (ra : Reg) :
    (s.pushed ra).cell (s.pushed ra).sp = (s.pushed ra).reg ra :=
  read_write_same (m := s.mem) hm _ _

theorem pushed_incSp (s : State) (ra : Reg) :
    (s.pushed ra).incSp = (s.store s.decSp.sp (s.decSp.reg ra)).setPc (s.pc + 2) :=
  congrArg (fun t : State => (t.store s.decSp.sp (s.decSp.reg ra)).setPc (s.pc + 2)) (decSp_incSp s)

/-- POP after PUSH of the same register leaves the store below SP and nothing else but the advance of `pc`. -/
theorem exec_pop_pushed {s : State} (hm : s.mem.wf) {a : Byte} {ra : Reg} (ha : a.toNat = ra.val) :
    exec (.pop a) (s.pushed ra) = .next ((s.store s.decSp.sp (s.decSp.reg ra)).setPc (s.pc + 4)) := by
  rw [exec_pop_of_cell_eq_reg ha (pushed_cell_sp hm ra), pushed_incSp]
  rfl

/-- Settles O30: the two instructions together are one store below SP, which touches no register. -/
theorem popAfterPushRestoresTheRegisters : Obligations.PopAfterPushRestoresTheRegisters := by
  unfold Obligations.PopAfterPushRestoresTheRegisters
  intro s a hm ha
  obtain ⟨ra, hra⟩ : ∃ ra : Reg, a.toNat = ra.val := ⟨⟨a.toNat, ha⟩, rfl⟩
  exact ⟨s.pushed ra, _, exec_push_of_eq hra, exec_pop_pushed hm hra, fun _ _ => rfl,
    (AlikeButForCell.store_left hm _ _).cells, ⟨rfl, rfl, rfl⟩, rfl⟩

end Sys2Proof.Machine
end

