-- ==== Sys2Proof/Proofs/ControlTransfer.lean ====
section
/-! The statement about RET of 44_control_transfer.md (R84). A CALL and a RET together come to one store at the cell below SP:
the RET takes its target from the cell that the CALL wrote and undoes the decrement of SP. -/

namespace Sys2Proof.Machine

/-! ### RET -/

theorem exec_ret (s : State) : exec .ret s = .next (s.incSp.setPc (s.cell s.sp).toNat) := rfl

theorem incSp_sp_toNat (s : State) : s.incSp.sp.toNat = (s.sp.toNat + 1) % 256 := by
  rw [incSp_sp, BitVec.toNat_add]
  rfl

/-! ### RET after CALL -/

/-- The state that a CALL leaves; `exec_call_of_eq` says so. -/
def State.called (s : State) (ra : Reg) : State :=
  (s.decSp.store s.decSp.sp (BitVec.ofNat 8 (s.pc + 2))).setPc (s.decSp.reg ra).toNat

/-- A return address below 256 fits the cell that CALL pushes it to. -/
theorem called_cell_sp_toNat {s : State} (hm : s.mem.wf) (ra : Reg) (hp : s.pc + 2 < 256) :
    ((s.called ra).cell (s.called ra).sp).toNat = s.pc + 2 := by
  have pushed : (s.called ra).cell (s.called ra).sp = BitVec.ofNat 8 (s.pc + 2) := read_write_same (m := s.mem) hm _ _
  rw [pushed, BitVec.toNat_ofNat, Nat.mod_eq_of_lt hp]

theorem called_incSp (s : State) (ra : Reg) :
    (s.called ra).incSp =
      (s.store s.decSp.sp (BitVec.ofNat 8 (s.pc + 2))).setPc (s.decSp.reg ra).toNat :=
  congrArg (fun t : State => (t.store s.decSp.sp (BitVec.ofNat 8 (s.pc + 2))).setPc (s.decSp.reg ra).toNat)
    (decSp_incSp s)

/-- RET after CALL leaves the store below SP and nothing else but the advance of `pc` past the CALL. -/
theorem exec_ret_called {s : State} (hm : s.mem.wf) (ra : Reg) (hp : s.pc + 2 < 256) :
    exec .ret (s.called ra) = .next ((s.store s.decSp.sp (BitVec.ofNat 8 (s.pc + 2))).setPc (s.pc + 2)) := by
  rw [exec_ret, called_cell_sp_toNat hm ra hp, called_incSp]
  rfl

/-- Settles O15: RET writes SP and `pc` alone, and after a CALL these two writes undo the CALL but for its store. -/
theorem retFollowsItsRule : Obligations.RetFollowsItsRule := by
  unfold Obligations.RetFollowsItsRule
  refine ⟨⟨rfl, decode_encode .ret⟩, fun s => ?_, ?_, fun s a hm ha hp => ?_⟩
  · exact ⟨_, exec_ret s, rfl, incSp_sp_toNat s, setReg_sameRegsExcept s Config.spIndex _, fun _ _ => rfl, ⟨rfl, rfl, rfl⟩⟩
  · exact ⟨_, exec_ret State.reset, rfl, incSp_sp State.reset⟩
  · obtain ⟨ra, hra⟩ : ∃ ra : Reg, a.toNat = ra.val := ⟨⟨a.toNat, ha⟩, rfl⟩
    exact ⟨s.called ra, _, exec_call_of_eq hra hp, exec_ret_called hm ra hp, rfl, fun _ _ => rfl,
      (AlikeButForCell.store_left hm _ _).cells, ⟨rfl, rfl, rfl⟩⟩

end Sys2Proof.Machine
end

