-- ==== Sys2Proof/Proofs/Alu.lean ====
section
/-! The statements about the ALU and the instructions ADD and MUL of 45_alu.md (R86 to R88, R90). The three arithmetic
instructions share their effect but for the operation, so effect and faults are stated once for every operation. -/

namespace Sys2Proof.Machine

/-! ### The operations -/

/-- The ALU reduces the exact integer result modulo 256, whichever the operation (R86). -/
theorem alu_toNat (op : AluOp) (x y : Byte) : ((alu op x y).toNat : Int) = op.exact x.toNat y.toNat % 256 := by
  rw [alu, BitVec.toNat_ofInt, Int.toNat_of_nonneg (Int.emod_nonneg _ (by decide))]
  rfl

theorem alu_add_toNat (x y : Byte) : (alu .add x y).toNat = (x.toNat + y.toNat) % 256 := by
  rw [alu_add, BitVec.toNat_add]

theorem alu_mul_toNat (x y : Byte) : (alu .mul x y).toNat = (x.toNat * y.toNat) % 256 := by
  rw [alu_mul, BitVec.toNat_mul]

/-! ### The arithmetic instructions -/

/-- The instruction that performs an operation of the ALU (R87). -/
def AluOp.instr : AluOp → Byte → Byte → Instr
  | .add => .add
  | .sub => .sub
  | .mul => .mul

theorem exec_aluOp_instr (op : AluOp) (a b : Byte) (s : State) :
    exec (op.instr a b) s = execAlu op (op.instr a b) a b s := by
  cases op <;> rfl

/-- An arithmetic instruction whose operands name registers writes one register and the advance of `pc`. -/
theorem exec_aluOp_of_eq {op : AluOp} {s : State} {a b : Byte} {ra rb : Reg} (ha : a.toNat = ra.val)
    (hb : b.toNat = rb.val) :
    exec (op.instr a b) s = .next ((s.setReg ra (alu op (s.reg ra) (s.reg rb))).setPc (s.pc + 3)) :=
  (exec_aluOp_instr op a b s).trans ((withReg_of_eq ha).trans (withReg_of_eq hb))

theorem exists_exec_aluOp_in_place (op : AluOp) (s : State) {a b : Byte} {ra rb : Reg} (ha : a.toNat = ra.val)
    (hb : b.toNat = rb.val) :
    ∃ t, exec (op.instr a b) s = .next t ∧ t.reg ra = alu op (s.reg ra) (s.reg rb) ∧ t.pc = s.pc + 3 ∧
      SameRegsExcept [ra] s t ∧ SameCellsExcept [] s t ∧ SameControl s t :=
  ⟨_, exec_aluOp_of_eq ha hb, setReg_reg_same _ _ _, rfl, setReg_sameRegsExcept s ra _, fun _ _ => rfl,
    ⟨rfl, rfl, rfl⟩⟩

/-- The faults of an arithmetic instruction: `A` is checked before `B`, and both are operand bytes (R69, R70). -/
theorem aluOp_faults (op : AluOp) :
    (∀ a b : Byte, 8 ≤ a.toNat → RaisesRegisterIndex (op.instr a b) (op.instr a b).opcode.byte [a, b] a) ∧
    (∀ a b : Byte, a.toNat < 8 → 8 ≤ b.toNat →
      RaisesRegisterIndex (op.instr a b) (op.instr a b).opcode.byte [a, b] b) ∧
    RaisesOperandAddress (op.instr 0 0).opcode.byte 2 := by
  cases op <;>
    exact ⟨fun _ b bad => raisesRegisterIndex_of_first_bad (find?_bad_of_first bad [b]),
      fun _ _ good bad => raisesRegisterIndex_of_first_bad (find?_bad_of_second good bad), raisesOperandAddress _⟩

/-- Settles O16: the ALU's sum in place, and the faults that the arithmetic instructions share. -/
theorem addFollowsItsRule : Obligations.AddFollowsItsRule := by
  unfold Obligations.AddFollowsItsRule
  refine ⟨fun a b => ⟨rfl, decode_encode (.add a b)⟩, fun s a b ra rb ha hb => ?_, aluOp_faults .add⟩
  obtain ⟨t, ran, sum, frame⟩ := exists_exec_aluOp_in_place .add s ha hb
  exact ⟨t, ran, by rw [sum, alu_add_toNat], frame⟩

/-- Settles O18: the ALU's product in place, and the faults that the arithmetic instructions share. -/
theorem mulFollowsItsRule : Obligations.MulFollowsItsRule := by
  unfold Obligations.MulFollowsItsRule
  refine ⟨fun a b => ⟨rfl, decode_encode (.mul a b)⟩, fun s a b ra rb ha hb => ?_, aluOp_faults .mul⟩
  obtain ⟨t, ran, product, frame⟩ := exists_exec_aluOp_in_place .mul s ha hb
  exact ⟨t, ran, by rw [product, alu_mul_toNat], frame⟩

/-- Settles O37: the ALU reduces the exact result, and for each operation the statement's instruction is that of
`AluOp.instr`. -/
theorem aluIsExactModulo256AndInPlace : Obligations.AluIsExactModulo256AndInPlace := by
  unfold Obligations.AluIsExactModulo256AndInPlace
  refine ⟨fun x y => ⟨alu_add_toNat x y, alu_toNat .sub x y, alu_mul_toNat x y⟩, fun s a b ra rb op ha hb => ?_⟩
  cases op with
  | add => exact exists_exec_aluOp_in_place .add s ha hb
  | sub => exact exists_exec_aluOp_in_place .sub s ha hb
  | mul => exact exists_exec_aluOp_in_place .mul s ha hb

/-! ### No other operation -/

/-- Settles O36: a step latches only records of an illegal opcode byte or of an access out of bounds. -/
theorem unsupportedOperationIsNeverRaised : Obligations.UnsupportedOperationIsNeverRaised := by
  unfold Obligations.UnsupportedOperationIsNeverRaised
  intro s t r h hr unsupported
  rcases kind_of_step_fault h hr with ⟨illegal, _⟩ | ⟨k, out_of_bounds⟩
  · cases unsupported.symm.trans illegal
  · cases unsupported.symm.trans out_of_bounds

end Sys2Proof.Machine
end

