-- ==== Sys2Proof/Proofs/Faults.lean ====
section
/-! The statements about the faults of 60_exceptions.md: their codes (R93) and that they are precise (R95). -/

namespace Sys2Proof.Machine

/-! ### Codes -/

/-- Settles O38: `FaultKind.code` and `FaultKind.sub?` are the two columns of R93, and every sub-kind shares one code. -/
theorem faultCodesAreTheListedOnes : Obligations.FaultCodesAreTheListedOnes := by
  unfold Obligations.FaultCodesAreTheListedOnes
  exact ⟨⟨rfl, rfl⟩, ⟨rfl, rfl⟩, fun _ => rfl, rfl, rfl, rfl, rfl⟩

/-! ### Precise faults -/

/-- An instruction that raises writes the latch alone, and the record names its address (R94, R95). -/
theorem eq_raise_of_exec_fault {i : Instr} {s t : State} {r : FaultRecord} (no_fault : s.fault = none)
    (h : exec i s = .next t) (hr : t.fault = some r) : t = s.raise r ∧ r.pc = s.pc := by
  rcases exec_raised_or_completed h with ⟨_, _, _, rfl⟩ | rfl | ⟨_, kept, _⟩
  · cases hr
    exact ⟨rfl, rfl⟩
  · cases hr
    exact ⟨rfl, rfl⟩
  · cases hr.symm.trans (kept.trans no_fault)

/-- A step that latches a record writes the latch alone, whether fetch, decode or the instruction raised it (R95). -/
theorem eq_raise_of_step_fault {s t : State} {r : FaultRecord} (h : step s = .next t) (hr : t.fault = some r) :
    t = s.raise r ∧ r.pc = s.pc := by
  obtain ⟨_, no_fault, hstep⟩ := live_of_step h
  rcases engineStep_cases s with
    ⟨_, raised⟩ | ⟨_, _, _, raised⟩ | ⟨_, _, _, _, _, _, raised⟩ | ⟨i, _, _, ran⟩
  · cases raised.symm.trans hstep
    cases hr
    exact ⟨rfl, rfl⟩
  · cases raised.symm.trans hstep
    cases hr
    exact ⟨rfl, rfl⟩
  · cases raised.symm.trans hstep
    cases hr
    exact ⟨rfl, rfl⟩
  · exact eq_raise_of_exec_fault no_fault (ran.symm.trans hstep) hr

theorem runResult?_eq_halted_iff {s : State} : s.runResult? = some .halted ↔ s.running = false ∧ s.fault = none := by
  rw [← status_halted_iff]
  cases h : s.status <;> simp [State.runResult?, h]

theorem runResult?_eq_faulted_iff {s : State} {r : FaultRecord} :
    s.runResult? = some (.faulted r) ↔ s.fault = some r := by
  rw [← status_faulted_iff]
  cases h : s.status <;> simp [State.runResult?, h]

/-- Settles O35: a step that latches is `raise`, and the latch it leaves stops the loop with the record. -/
theorem faultsArePrecise : Obligations.FaultsArePrecise := by
  unfold Obligations.FaultsArePrecise
  intro s t r h hr
  obtain ⟨only_latch, at_pc⟩ := eq_raise_of_step_fault h hr
  exact ⟨only_latch, at_pc, step_of_latched hr, runResult?_eq_faulted_iff.2 hr⟩

end Sys2Proof.Machine
end

