-- ==== Sys2Proof/Proofs/HostPort.lean ====
section
/-! The statements about the host's transactions of 60_exceptions.md: when they are possible (R107), what LOAD (R103) and
SNAPSHOT (R105) do, and the bytes the sink prints (R104). -/

namespace Sys2Proof.Machine

/-! ### SNAPSHOT -/

theorem snapshot_bytes_getElem (s : State) (k : Nat) (h : k < s.snapshot.bytes.length) :
    s.snapshot.bytes[k] = s.mem.read? (s.pc + k) := by
  match k, h with
  | 0, _ => rfl
  | 1, _ => rfl
  | 2, _ => rfl

/-- Settles O42: the reply is a view of the state, and `Memory.read?` is absent at exactly the addresses without a cell. -/
theorem snapshotChangesNothing : Obligations.SnapshotChangesNothing := by
  unfold Obligations.SnapshotChangesNothing
  exact fun s _ => ⟨s.snapshot, rfl, rfl, rfl, snapshot_bytes_getElem s, fun _ => rfl⟩

/-! ### What a transaction can do -/

theorem load?_of_le {image : List Byte} (s : State) (h : image.length ≤ Config.memSize) :
    s.load? image = some { s with mem := s.mem.place Config.loadBase image } :=
  if_pos h

theorem load?_of_gt {image : List Byte} (s : State) (h : Config.memSize < image.length) : s.load? image = none :=
  if_neg (Nat.not_le.2 h)

/-- LOAD writes memory alone (R103). -/
theorem eq_of_load? {s t : State} {image : List Byte} (h : s.load? image = some t) :
    t = { s with mem := s.mem.place Config.loadBase image } := by
  rcases Nat.lt_or_ge Config.memSize image.length with long | fits
  · cases (load?_of_gt s long).symm.trans h
  · exact Option.some.inj (h.symm.trans (load?_of_le s fits))

/-- Between RUNs LOAD answers what `State.load?` says of the block (R103). -/
theorem host_load_of_closed (s : State) (image : List Byte) :
    Session.host ⟨s, false⟩ (.load image) =
      (s.load? image).elim (some (⟨s, false⟩, .imageTooLong)) fun t => some (⟨t, false⟩, .done) := by
  cases h : s.load? image <;> simp [Session.host, h]

/-- During a RUN every transaction but SNAPSHOT is no move (R107). -/
theorem host_of_open (s : State) (m : HostMove) :
    Session.host ⟨s, true⟩ m = if m = .snapshot then some (⟨s, true⟩, .snapshot s.snapshot) else none := by
  cases m <;> rfl

/-- Everything a host transaction can do: it changes nothing, or no RUN is in progress and it is RESET, a LOAD that fits,
or RUN (R101 to R107). -/
theorem host_cases {σ σ' : Session} {m : HostMove} {reply : Reply} (h : σ.host m = some (σ', reply)) :
    σ' = σ ∨ σ.runOpen = false ∧
      (m = .reset ∧ σ' = Session.initial ∨
       (∃ image t, m = .load image ∧ σ.block.load? image = some t ∧ σ' = ⟨t, false⟩) ∨
       m = .run ∧ σ' = ⟨σ.block.beginRun, true⟩) := by
  obtain ⟨s, runOpen⟩ := σ
  cases runOpen with
  | true =>
    rw [host_of_open] at h
    split at h
    · cases h
      exact .inl rfl
    · cases h
  | false =>
    cases m with
    | reset =>
      cases h
      exact .inr ⟨rfl, .inl ⟨rfl, rfl⟩⟩
    | load image =>
      rw [host_load_of_closed] at h
      cases hload : s.load? image with
      | none =>
        rw [hload] at h
        cases h
        exact .inl rfl
      | some t =>
        rw [hload] at h
        cases h
        exact .inr ⟨rfl, .inr (.inl ⟨image, t, rfl, hload, rfl⟩)⟩
    | run =>
      cases h
      exact .inr ⟨rfl, .inr (.inr ⟨rfl, rfl⟩)⟩
    | snapshot =>
      cases h
      exact .inl rfl

theorem host_ne_none_of_closed (s : State) (m : HostMove) : Session.host ⟨s, false⟩ m ≠ none := by
  cases m with
  | reset | run | snapshot => nofun
  | load image =>
    rw [host_load_of_closed]
    cases s.load? image <;> nofun

/-- Settles O43: a RUN in progress leaves SNAPSHOT as the only move, and without one every move has an answer. -/
theorem hostOnlyTakesSnapshotsDuringARun : Obligations.HostOnlyTakesSnapshotsDuringARun := by
  unfold Obligations.HostOnlyTakesSnapshotsDuringARun
  refine ⟨?_, fun σ σ' m reply in_run h => ?_, ?_⟩
  · rintro ⟨s, _⟩ m rfl
    simp [host_of_open]
  · rcases host_cases h with same | ⟨closed, _⟩
    · exact same
    · cases in_run.symm.trans closed
  · rintro ⟨s, _⟩ m rfl
    exact host_ne_none_of_closed s m

/-! ### LOAD -/

/-- Placing bytes keeps every cell below the first and from the last on (R103). -/
theorem read_place_outside {m : Memory} (hm : m.wf) {a : Nat} {bs : List Byte} {b : Addr}
    (outside : b.toNat < a ∨ a + bs.length ≤ b.toNat) : (m.place a bs).read b = m.read b := by
  induction bs generalizing m a with
  | nil => rfl
  | cons v bs ih =>
    simp only [Memory.place]
    split
    next below =>
      have cell : a < 256 := below
      have elsewhere : b ≠ BitVec.ofNat 8 a := by
        rintro rfl
        simp only [BitVec.toNat_ofNat, List.length_cons] at outside
        omega
      rw [ih (write_wf hm _ _) (by simp only [List.length_cons] at outside; omega), read_write_other hm elsewhere]
    next => rfl

/-- Placing bytes that fit below 256 puts each at its address, because the later ones go to higher addresses (R103). -/
theorem read_place_of_eq {m : Memory} (hm : m.wf) {a k : Nat} {bs : List Byte} {b : Addr}
    (fits : a + bs.length ≤ Config.memSize) (hk : k < bs.length) (hb : b.toNat = a + k) :
    (m.place a bs).read b = bs[k] := by
  induction bs generalizing m a k with
  | nil => cases hk
  | cons v bs ih =>
    simp only [List.length_cons] at fits hk
    have cell : a < Config.memSize := by omega
    simp only [Memory.place, cell, if_true]
    cases k with
    | zero =>
      obtain rfl : b = BitVec.ofNat 8 a := BitVec.eq_of_toNat_eq (by simp; omega)
      rw [read_place_outside (write_wf hm _ _) (.inl (by omega)), read_write_same hm]
      rfl
    | succ k => exact ih (write_wf hm _ _) (by omega) (by omega) (by omega)

/-- Settles O41: bytes that fit are placed each at its own address, and a longer image answers `.imageTooLong`. -/
theorem loadPlacesTheImage : Obligations.LoadPlacesTheImage := by
  unfold Obligations.LoadPlacesTheImage
  refine ⟨fun s image hm fits => ?_, fun s image long => ?_⟩
  · have placed := load?_of_le s fits
    refine ⟨_, placed, fun a listed => ?_, fun a beyond => ?_, rfl, rfl, ⟨rfl, rfl, rfl⟩, fun runOpen => ?_⟩
    · exact read_place_of_eq hm (by simpa using fits) listed (Nat.zero_add _).symm
    · exact read_place_outside hm (.inr (by simpa using beyond))
    · cases runOpen with
      | true => rfl
      | false =>
        rw [host_load_of_closed, placed]
        rfl
  · rw [host_load_of_closed, load?_of_gt s long]
    rfl

/-! ### The sink -/

/-- The ASCII code of a decimal digit (log entry 10). -/
def asciiDigit (d : Nat) : Byte := BitVec.ofNat 8 (0x30 + d)

theorem renderOut_eq (v : Byte) : renderOut v = (decimalDigits v.toNat).map asciiDigit ++ [0x0A#8] := rfl

theorem asciiDigit_toNat {d : Nat} (h : d < 10) : (asciiDigit d).toNat = 0x30 + d := by
  rw [asciiDigit, BitVec.toNat_ofNat]
  omega

/-- The three lengths of a number below 1000, the highest digit being zero only in the number 0. -/
theorem decimalDigits_cases {n : Nat} (h : n < 1000) :
    (n < 10 ∧ decimalDigits n = [n]) ∨
    (0 < n / 10 ∧ n / 10 < 10 ∧ decimalDigits n = [n / 10, n % 10]) ∨
    (0 < n / 100 ∧ n / 100 < 10 ∧ decimalDigits n = [n / 100, n / 10 % 10, n % 10]) := by
  by_cases one : n < 10
  · exact .inl ⟨one, if_pos one⟩
  · by_cases two : n < 100
    · exact .inr (.inl ⟨by omega, by omega, by simp [decimalDigits, one, two]⟩)
    · exact .inr (.inr ⟨by omega, by omega, by simp [decimalDigits, one, two]⟩)

theorem decimalDigits_ne_nil {n : Nat} (h : n < 1000) : decimalDigits n ≠ [] := by
  rcases decimalDigits_cases h with ⟨_, e⟩ | ⟨_, _, e⟩ | ⟨_, _, e⟩ <;> simp [e]

theorem lt_ten_of_mem_decimalDigits {n d : Nat} (h : n < 1000) (hd : d ∈ decimalDigits n) : d < 10 := by
  rcases decimalDigits_cases h with ⟨_, e⟩ | ⟨_, _, e⟩ | ⟨_, _, e⟩ <;>
  · simp only [e, List.mem_cons, List.not_mem_nil, or_false] at hd
    omega

/-- The digits read as a decimal number are the number. -/
theorem foldl_decimalDigits {n : Nat} (h : n < 1000) : (decimalDigits n).foldl (fun m d => 10 * m + d) 0 = n := by
  rcases decimalDigits_cases h with ⟨_, e⟩ | ⟨_, _, e⟩ | ⟨_, _, e⟩ <;>
  · simp only [e, List.foldl_cons, List.foldl_nil]
    omega

theorem decimalDigits_eq_of_head?_eq_zero {n : Nat} (h : n < 1000) (zero : (decimalDigits n).head? = some 0) :
    decimalDigits n = [0] := by
  rcases decimalDigits_cases h with ⟨_, e⟩ | ⟨pos, _, e⟩ | ⟨pos, _, e⟩ <;> rw [e, List.head?_cons] at zero
  · rw [e, Option.some.inj zero]
  · exact absurd (Option.some.inj zero) pos.ne'
  · exact absurd (Option.some.inj zero) pos.ne'

/-- Settles O46: the ASCII codes of the decimal digits, from which the code of 0 subtracts again to the digits. -/
theorem sinkPrintsDecimal : Obligations.SinkPrintsDecimal := by
  unfold Obligations.SinkPrintsDecimal
  intro v
  have small : v.toNat < 1000 := Nat.lt_trans v.isLt (by decide)
  have code : ∀ d ∈ decimalDigits v.toNat, (asciiDigit d).toNat = 0x30 + d :=
    fun d hd => asciiDigit_toNat (lt_ten_of_mem_decimalDigits small hd)
  refine ⟨(decimalDigits v.toNat).map asciiDigit, renderOut_eq v, by simpa using decimalDigits_ne_nil small,
    List.forall_mem_map.2 fun d hd => ?_, ?_, fun leading_zero => ?_⟩
  · have := lt_ten_of_mem_decimalDigits small hd
    have := code d hd
    omega
  · calc ((decimalDigits v.toNat).map asciiDigit).foldl (fun n d => 10 * n + (d.toNat - 0x30)) 0
      _ = (decimalDigits v.toNat).foldl (fun n d => 10 * n + ((asciiDigit d).toNat - 0x30)) 0 := List.foldl_map
      _ = (decimalDigits v.toNat).foldl (fun n d => 10 * n + d) 0 :=
        List.foldl_ext _ _ _ fun n d hd => by rw [code d hd, Nat.add_sub_cancel_left]
      _ = v.toNat := foldl_decimalDigits small
  · rw [List.head?_map] at leading_zero
    obtain ⟨d, first, is_zero⟩ := Option.map_eq_some_iff.1 leading_zero
    have value : 0x30 + d = 0x30 := (code d (List.mem_of_head? first)).symm.trans (congrArg BitVec.toNat is_zero)
    obtain rfl : d = 0 := by omega
    rw [decimalDigits_eq_of_head?_eq_zero small first]
    rfl

end Sys2Proof.Machine
end

