-- ==== Sys2Proof/Proofs/RunResults.lean ====
section
/-! The statements about RUN's result of 60_exceptions.md: a latched record is returned until RESET (R98), and a RUN halts,
faults or never ends (R114). -/

namespace Sys2Proof.Machine

/-! ### Runs from a state with a result -/

/-- From a state with a result no step happens, so a run that reaches a next state is the run of no steps. -/
theorem eq_of_run_of_runResult {s t : State} {res : RunResult} {n : Nat} (h : s.runResult? = some res)
    (ran : Sys2Proof.core.run n s = .next t) : t = s := by
  cases n with
  | zero => exact (Host.Outcome.next.inj ran).symm
  | succ n =>
    obtain ⟨u, stepped, _⟩ := step_of_run_succ ran
    cases (runResult?_eq_none_iff.2 (status_running_iff_steps.2 ⟨u, stepped⟩)).symm.trans h

/-- A RUN with a result at once returns it without a step. -/
theorem runReturns_iff_of_runResult {s t : State} {res res' : RunResult} (h : s.beginRun.runResult? = some res') :
    RunReturns s res t ↔ res = res' ∧ t = s.beginRun := by
  constructor
  · rintro ⟨n, ran, result⟩
    obtain rfl := eq_of_run_of_runResult h ran
    exact ⟨Option.some.inj (result.symm.trans h), rfl⟩
  · rintro ⟨rfl, rfl⟩
    exact ⟨0, run_zero _, h⟩

/-! ### The latch -/

/-- No transaction but RESET writes the latch (R98). -/
theorem fault_of_host {σ σ' : Session} {m : HostMove} {reply : Reply} (h : σ.host m = some (σ', reply))
    (hm : m ≠ .reset) : σ'.block.fault = σ.block.fault := by
  rcases host_cases h with rfl | ⟨_, ⟨is_reset, _⟩ | ⟨_, _, _, loaded, rfl⟩ | ⟨_, rfl⟩⟩
  · rfl
  · exact absurd is_reset hm
  · rw [eq_of_load? loaded]
  · rfl

/-- While a record is latched a pass only returns it (R98, R102). -/
theorem tick_of_latched {σ σ' : Session} {e : EngineEvent} {r : FaultRecord} (hf : σ.block.fault = some r)
    (h : σ.tick = some (σ', e)) : σ'.block = σ.block ∧ e = .returned (.faulted r) := by
  obtain ⟨s, runOpen⟩ := σ
  cases runOpen with
  | false => cases (tick_of_closed s).symm.trans h
  | true =>
    cases (tick_of_runResult (runResult?_eq_faulted_iff.2 hf)).symm.trans h
    exact ⟨rfl, rfl⟩

theorem host_reset_of_closed (s : State) : Session.host ⟨s, false⟩ .reset = some (Session.initial, .done) := rfl

/-- Settles O39: RUN keeps the latch, so it has its result before the first step, and RESET is the one transaction that
writes the latch. -/
theorem onlyResetClearsTheLatch : Obligations.OnlyResetClearsTheLatch := by
  unfold Obligations.OnlyResetClearsTheLatch
  refine ⟨fun s r hf => ?_, fun σ σ' m reply r hf h hm => (fault_of_host h hm).trans hf,
    fun σ σ' e r => tick_of_latched, ?_⟩
  · have result_at_once : s.beginRun.runResult? = some (.faulted r) := runResult?_eq_faulted_iff.2 hf
    exact ⟨step_of_latched hf, rfl, hf, fun _ _ => runReturns_iff_of_runResult result_at_once⟩
  · rintro ⟨s, _⟩ rfl
    exact ⟨host_reset_of_closed s, rfl⟩

/-! ### How a RUN ends -/

/-- Of two runs from one state, the longer adds no step when the shorter has ended with a result. -/
theorem run_end_unique_of_le {s t t' : State} {m n : Nat} {res : RunResult} (hmn : m ≤ n)
    (hm : Sys2Proof.core.run m s = .next t) (hn : Sys2Proof.core.run n s = .next t')
    (result : t.runResult? = some res) : t' = t := by
  obtain ⟨k, rfl⟩ := Nat.exists_eq_add_of_le hmn
  obtain ⟨u, ran, rest⟩ := run_add.1 hn
  cases hm.symm.trans ran
  exact eq_of_run_of_runResult result rest

/-- A RUN has one result and one end. -/
theorem RunReturns.unique {s t t' : State} {res res' : RunResult} (h : RunReturns s res t) (h' : RunReturns s res' t') :
    res = res' ∧ t = t' := by
  obtain ⟨m, hm, result⟩ := h
  obtain ⟨n, hn, result'⟩ := h'
  have same_end : t = t' := by
    rcases Nat.le_total m n with hmn | hnm
    · exact (run_end_unique_of_le hmn hm hn result).symm
    · exact run_end_unique_of_le hnm hn hm result'
  subst same_end
  exact ⟨Option.some.inj (result.symm.trans result'), rfl⟩

theorem RunReturns.not_runNeverReturns {s t : State} {res : RunResult} (h : RunReturns s res t) :
    ¬ RunNeverReturns s := by
  intro never
  obtain ⟨n, ran, result⟩ := h
  obtain ⟨t', ran', no_result⟩ := never n
  cases ran.symm.trans ran'
  cases no_result.symm.trans result

/-- The loop from a live state is still going on after `n` steps, or some step before has ended it. -/
theorem run_goes_on_or_ended (n : Nat) {s : State} (live : s.runResult? = none) :
    (∃ t, Sys2Proof.core.run n s = .next t ∧ t.runResult? = none) ∨
    ∃ m u t res, Sys2Proof.core.run m s = .next t ∧ step u = .next t ∧ t.runResult? = some res := by
  induction n generalizing s with
  | zero => exact .inl ⟨s, run_zero s, live⟩
  | succ n ih =>
    obtain ⟨v, stepped⟩ := status_running_iff_steps.1 (runResult?_eq_none_iff.1 live)
    cases result : v.runResult? with
    | some res => exact .inr ⟨1, s, v, res, run_succ_of_next stepped 0, stepped, result⟩
    | none =>
      rcases ih result with ⟨t, ran, no_result⟩ | ⟨m, u, t, res, ran, last, ended⟩
      · exact .inl ⟨t, (run_succ_of_next stepped n).trans ran, no_result⟩
      · exact .inr ⟨m + 1, u, t, res, (run_succ_of_next stepped m).trans ran, last, ended⟩

/-- A RUN from a state with no record latched never returns, or returns after a last step. -/
theorem runNeverReturns_or_ended {s : State} (no_fault : s.fault = none) :
    RunNeverReturns s ∨ ∃ u t res, RunReturns s res t ∧ step u = .next t := by
  have live : s.beginRun.runResult? = none := runResult?_eq_none_iff.2 (status_running_iff.2 ⟨rfl, no_fault⟩)
  by_cases never : RunNeverReturns s
  · exact .inl never
  · obtain ⟨n, stops⟩ := not_forall.1 never
    rcases run_goes_on_or_ended n live with goes_on | ⟨m, u, t, res, ran, last, ended⟩
    · exact absurd goes_on stops
    · exact .inr ⟨u, t, res, ⟨m, ran, ended⟩, last⟩

/-- Settles O47: the last step of a RUN that returns has cleared `running`, which only HLT does, or has latched a record;
and from its end no step goes on. -/
theorem runEndsInOneOfThreeWays : Obligations.RunEndsInOneOfThreeWays := by
  unfold Obligations.RunEndsInOneOfThreeWays
  refine ⟨fun s no_fault => ?_, fun _ _ _ _ _ => RunReturns.unique, fun _ _ _ => RunReturns.not_runNeverReturns⟩
  rcases runNeverReturns_or_ended no_fault with never | ⟨u, t, res, returns, last⟩
  · exact .inr (.inr never)
  · have ⟨_, _, result⟩ := returns
    cases res with
    | halted =>
      obtain ⟨stopped, no_record⟩ := runResult?_eq_halted_iff.1 result
      exact .inl ⟨t, returns, stopped, no_record, u, (step_running_eq_false_iff last).1 stopped, last⟩
    | faulted r =>
      obtain ⟨_, was_clear, _⟩ := live_of_step last
      exact .inr (.inl ⟨r, t, returns, runResult?_eq_faulted_iff.1 result, u, was_clear, last⟩)

end Sys2Proof.Machine
end

