-- ==== Sys2Proof/Proofs/BeginRun.lean ====
section
/-! RUN is not a reset (70_reset_and_hazards.md R117; the spec's decision D8): the rules of `setRunning`, read at
the state a RUN begins from. -/

namespace Sys2Proof.Machine

/-- Settles O40: beginning a RUN is one write of `running`, and each part of the state has its rule for that write. -/
theorem runSetsOnlyRunning : Obligations.RunSetsOnlyRunning := by
  unfold Obligations.RunSetsOnlyRunning
  intro s
  exact ⟨setRunning_running s true, setRunning_pc s true, setRunning_regs s true, setRunning_mem s true,
    setRunning_out s true, setRunning_fault s true⟩

end Sys2Proof.Machine
end

