-- ==== Sys2Proof/Proofs/RoundTrip.lean ====
section
/-! The statements about decoding and encoding of 30_encoding.md: the two agree in both directions (R48 to R57), and the
words of the table decode to their instructions (R49, R50). -/

namespace Sys2Proof.Machine

/-- Decoding takes an encoding off the front and leaves the bytes after it, every operand byte included (R70). -/
theorem decode_encode_append (i : Instr) (rest : List Byte) : decode (encode i ++ rest) = .ok (i, rest) := by
  cases i <;> rfl

/-- Settles O1: the decoder answers an instruction only for bytes that begin with its encoding, and always for those. -/
theorem decodeAndEncodeAgree : Obligations.DecodeAndEncodeAgree := by
  unfold Obligations.DecodeAndEncodeAgree
  intro bs i rest
  constructor
  · intro decoded
    cases bs with
    | nil => cases decoded
    | cons op bs => exact eq_encode_append_of_decode decoded
  · rintro rfl
    exact decode_encode_append i rest

/-- Settles O2: each string of the table is the encoding of its instruction, and 0xA1 is the byte of no opcode. -/
theorem tableWordsDecode : Obligations.TableWordsDecode := by
  unfold Obligations.TableWordsDecode
  exact ⟨decode_encode .hlt, decode_encode (.prn 3), decode_encode (.ldi 5 255), decode_encode (.push 7),
    decode_encode (.pop 1), decode_encode (.call 1), decode_encode .ret, decode_encode (.add 0 1),
    decode_encode (.sub 3 2), decode_encode (.mul 0 1), decode_encode (.st 2 0), decode_of_ofByte?_eq_none rfl _⟩

end Sys2Proof.Machine
end

