-- ==== Sys2Proof/Proofs/CanonicalMemory.lean ====
section
/-! The statement about the form in which 20_memory.md's cells are held (log entry 4): it carries nothing but what reads
give, because the listed cells are exactly those that do not read as the reset value. -/

namespace Sys2Proof.Machine

theorem lookup_of_mem {m : Memory} (sorted : m.Pairwise (fun c d => c.1 < d.1)) {c : Host.Cell} (h : c ∈ m) :
    m.lookup c.1 = c.2 := by
  induction m with
  | nil => cases h
  | cons d m ih =>
    obtain ⟨above, sorted⟩ := List.pairwise_cons.1 sorted
    rcases List.mem_cons.1 h with rfl | h
    · exact if_pos rfl
    · exact (if_neg (above c h).ne).trans (ih sorted h)

/-- Only a listed cell reads as something else than the reset value. -/
theorem mem_of_lookup_ne_reset {m : Memory} {a : Nat} (h : m.lookup a ≠ Config.cellReset) : (a, m.lookup a) ∈ m := by
  induction m with
  | nil => exact absurd rfl h
  | cons d m ih =>
    obtain ⟨k, w⟩ := d
    by_cases hk : k = a
    · simp [Memory.lookup, hk]
    · simp only [Memory.lookup, hk, if_false] at h ⊢
      exact List.mem_cons_of_mem _ (ih h)

theorem lookup_eq_read (m : Memory) {a : Nat} (h : a < Config.memSize) : m.lookup a = m.read (BitVec.ofNat 8 a) := by
  rw [Memory.read, BitVec.toNat_ofNat, Nat.mod_eq_of_lt h]

/-- A cell listed in one canonical memory is listed in any memory that reads alike. -/
theorem mem_of_read_eq {m m' : Memory} (hm : m.wf) (alike : ∀ a : Addr, m.read a = m'.read a) {c : Host.Cell}
    (h : c ∈ m) : c ∈ m' := by
  obtain ⟨sorted, proper⟩ := hm
  obtain ⟨in_range, not_reset⟩ := proper c h
  have value : m'.lookup c.1 = c.2 :=
    calc m'.lookup c.1
      _ = m.lookup c.1 := by rw [lookup_eq_read m' in_range, lookup_eq_read m in_range, alike]
      _ = c.2 := lookup_of_mem sorted h
  have listed : (c.1, m'.lookup c.1) ∈ m' := mem_of_lookup_ne_reset (by rwa [value])
  rwa [value] at listed

theorem wf_nodup {m : Memory} (hm : m.wf) : m.Nodup :=
  hm.1.imp fun lt same => absurd (congrArg Prod.fst same) lt.ne

/-- Settles O7: the two lists have the same cells, in the same order of addresses. -/
theorem memoriesThatReadAlikeAreEqual : Obligations.MemoriesThatReadAlikeAreEqual := by
  unfold Obligations.MemoriesThatReadAlikeAreEqual
  intro m m' hm hm' alike
  have same_cells : m.Perm m' := (List.perm_ext_iff_of_nodup (wf_nodup hm) (wf_nodup hm')).2 fun _ =>
    ⟨mem_of_read_eq hm alike, mem_of_read_eq hm' fun a => (alike a).symm⟩
  exact same_cells.eq_of_pairwise (fun _ _ _ _ lt gt => absurd lt gt.asymm) hm.1 hm'.1

end Sys2Proof.Machine
end

