-- ==== Sys2Proof/Proofs/HaltOutput.lean ====
section
/-! The statements about HLT and PRN of 41_halt_output.md (R75, R76) and the output history that PRN alone appends to
(R27). -/

namespace Sys2Proof.Machine

/-! ### HLT -/

theorem beginRun_live_iff {s : State} : s.beginRun.Live ↔ s.fault = none :=
  ⟨fun ⟨_, no_fault⟩ => no_fault, fun no_fault => ⟨rfl, no_fault⟩⟩

/-- Settles O8: HLT writes `running` and the advance of `pc`, so the loop has its result, and a later RUN goes on at the
`pc` that HLT left. -/
theorem hltFollowsItsRule : Obligations.HltFollowsItsRule := by
  unfold Obligations.HltFollowsItsRule
  refine ⟨⟨rfl, decode_encode .hlt⟩, fun s => ⟨_, exec_hlt s, rfl, rfl, fun _ _ => rfl, fun _ _ => rfl, rfl, rfl,
    fun no_fault => ⟨step_of_halted no_fault rfl, runResult?_eq_halted_iff.2 ⟨rfl, no_fault⟩⟩,
    beginRun_live_iff, rfl, fun no_fault hpc => ?_⟩⟩
  exact step_of_pc_at_end (beginRun_live_iff.2 no_fault) (congrArg (· + 1) hpc)

/-! ### PRN -/

theorem exec_prn_of_eq {s : State} {a : Byte} {ra : Reg} (ha : a.toNat = ra.val) :
    exec (.prn a) s = .next ((s.emit (s.reg ra)).setPc (s.pc + 2)) :=
  withReg_of_eq ha

theorem sinkText_append (out : List Byte) (v : Byte) : sinkText (out ++ [v]) = sinkText out ++ renderOut v := by
  simp [sinkText]

/-- Settles O9: PRN appends the register to `out` and advances `pc`; after an LDI that register holds the immediate. -/
theorem prnFollowsItsRule : Obligations.PrnFollowsItsRule := by
  unfold Obligations.PrnFollowsItsRule
  refine ⟨fun a => ⟨rfl, decode_encode (.prn a)⟩, fun s a ra ha => ?_,
    fun _ bad => raisesRegisterIndex_of_first_bad (find?_bad_of_first bad []), raisesOperandAddress .prn,
    ⟨rfl, rfl⟩, fun s a v good => ?_⟩
  · exact ⟨_, exec_prn_of_eq ha, rfl, rfl, sinkText_append s.out _, fun _ _ => rfl, fun _ _ => rfl, rfl, rfl⟩
  · obtain ⟨ra, hra⟩ : ∃ ra : Reg, a.toNat = ra.val := ⟨⟨a.toNat, good⟩, rfl⟩
    exact ⟨_, _, exec_ldi_of_eq v hra, exec_prn_of_eq hra,
      congrArg (fun w => s.out ++ [w]) (setReg_reg_same s ra v)⟩

/-! ### The output history -/

/-- The state with other bytes put before its output history. -/
def State.withEarlier (s : State) (earlier : List Byte) : State := { s with out := earlier ++ s.out }

theorem withEarlier_emit (s : State) (earlier : List Byte) (v : Byte) :
    (s.withEarlier earlier).emit v = (s.emit v).withEarlier earlier := by
  simp only [State.withEarlier, State.emit, List.append_assoc]

theorem withReg_next_withEarlier {i : Instr} {a : Byte} {s t : State} {earlier : List Byte} {k k' : Reg → Result}
    (hk : ∀ r t, k r = .next t → k' r = .next (t.withEarlier earlier)) (h : withReg i a s k = .next t) :
    withReg i a (s.withEarlier earlier) k' = .next (t.withEarlier earlier) :=
  withReg_next_of_commute (f := fun u => u.withEarlier earlier) rfl (fun _ => rfl) hk h

/-- No instruction reads the history; PRN appends after all of it. -/
theorem exec_withEarlier {i : Instr} {s t : State} (earlier : List Byte) (h : exec i s = .next t) :
    exec i (s.withEarlier earlier) = .next (t.withEarlier earlier) := by
  cases i with
  | hlt | ret => cases h; rfl
  | prn a =>
    refine withReg_next_withEarlier (fun r _ done => ?_) h
    cases done
    rw [withEarlier_emit]
    rfl
  | ldi _ _ | push _ | pop _ => exact withReg_next_withEarlier (fun _ _ done => by cases done; rfl) h
  | call a =>
    refine withReg_next_withEarlier (fun _ _ done => ?_) h
    have same_pc : (s.withEarlier earlier).pc = s.pc := rfl
    by_cases hret : Config.memSize ≤ s.pc + 2
    · simp only [same_pc, hret, if_true] at done ⊢
      cases done
      rfl
    · simp only [same_pc, hret, if_false] at done ⊢
      cases done
      rfl
  | add a b | sub a b | mul a b | st a b =>
    exact withReg_next_withEarlier
      (fun _ _ rest => withReg_next_withEarlier (fun _ _ done => by cases done; rfl) rest) h

/-- Fetch and decode read memory and `pc` alone, so the same instruction runs or the same fault is raised. -/
theorem engineStep_withEarlier {s t : State} (earlier : List Byte) (h : engineStep s = .next t) :
    engineStep (s.withEarlier earlier) = .next (t.withEarlier earlier) := by
  have same_bytes : fetch (s.withEarlier earlier).mem (s.withEarlier earlier).pc = fetch s.mem s.pc := rfl
  cases hd : decode (fetch s.mem s.pc) with
  | error e =>
    simp only [engineStep, same_bytes, hd] at h ⊢
    cases h
    rfl
  | ok decoded =>
    simp only [engineStep, same_bytes, hd] at h ⊢
    exact exec_withEarlier earlier h

/-- Settles O25: each instruction commutes with putting bytes before the history, and so does a step. -/
theorem outputIsOnlyAppendedAndNeverRead : Obligations.OutputIsOnlyAppendedAndNeverRead := by
  unfold Obligations.OutputIsOnlyAppendedAndNeverRead
  refine ⟨rfl, fun _ _ => out_of_step, fun s t earlier h => ?_⟩
  obtain ⟨running, no_fault, hstep⟩ := live_of_step h
  exact (step_of_live (s := s.withEarlier earlier) running no_fault).trans (engineStep_withEarlier earlier hstep)

end Sys2Proof.Machine
end

