-- ==== Sys2Proof/Proofs/StackPointer.lean ====
section
/-! The statements about the four instructions that move SP: PUSH and POP of 43_stack.md (R81, R82), CALL of
44_control_transfer.md (R83), and that SP wraps modulo 256 in all of them (R80). PUSH and CALL are one store at the
decremented SP. -/

namespace Sys2Proof.Machine

/-! ### The states PUSH and CALL leave -/

variable {s : State} {ra : Reg}

theorem decSp_sp_toNat (s : State) : s.decSp.sp.toNat = (s.sp.toNat + 255) % 256 := by
  rw [decSp_sp, BitVec.toNat_sub, Nat.add_comm]
  rfl

/-- Naming SP after the decrement reads the decremented SP (D14). -/
theorem decSp_reg_eq_ite (s : State) (ra : Reg) : s.decSp.reg ra = if ra = 7 then s.decSp.sp else s.reg ra := by
  rw [decSp_reg, decSp_sp]

theorem decSp_sameRegsExcept (s : State) : SameRegsExcept [7] s s.decSp := setReg_sameRegsExcept s Config.spIndex _

theorem pushed_cell (hm : s.mem.wf) (ra : Reg) : (s.pushed ra).cell s.decSp.sp = s.decSp.reg ra :=
  read_write_same hm _ _

/-- Settles O12: PUSH is the decrement of SP, one store at the new SP and the advance of `pc`. -/
theorem pushFollowsItsRule : Obligations.PushFollowsItsRule := by
  unfold Obligations.PushFollowsItsRule
  refine ⟨fun a => ⟨rfl, decode_encode (.push a)⟩, fun s a ra hm ha => ?_,
    fun _ bad => raisesRegisterIndex_of_first_bad (find?_bad_of_first bad []), raisesOperandAddress .push⟩
  exact ⟨s.pushed ra, exec_push_of_eq ha, decSp_sp_toNat s, rfl, (pushed_cell hm ra).trans (decSp_reg_eq_ite s ra), rfl,
    decSp_sameRegsExcept s, (AlikeButForCell.store_left hm _ _).cells, ⟨rfl, rfl, rfl⟩⟩

theorem exec_call_of_too_high {a : Byte} (ha : a.toNat = ra.val) (too_high : Config.memSize ≤ s.pc + 2) :
    exec (.call a) s = .next (s.raise (returnAddressRecord s.pc (.call a) (s.pc + 2))) :=
  (withReg_of_eq ha).trans (if_pos too_high)

/-- Settles O14: CALL is the decrement of SP, one store at the new SP and the jump; the check of the return address
comes before all three. -/
theorem callFollowsItsRule : Obligations.CallFollowsItsRule := by
  unfold Obligations.CallFollowsItsRule
  refine ⟨fun a => ⟨rfl, decode_encode (.call a)⟩, fun s a ra hm ha hp => ?_,
    fun _ bad => raisesRegisterIndex_of_first_bad (find?_bad_of_first bad []), raisesOperandAddress .call,
    fun s a good too_high => exec_call_of_too_high (ra := ⟨a.toNat, good⟩) rfl too_high⟩
  exact ⟨s.called ra, exec_call_of_eq ha hp, decSp_sp_toNat s, rfl, called_cell_sp_toNat hm ra hp,
    congrArg BitVec.toNat (decSp_reg_eq_ite s ra), decSp_sameRegsExcept s,
    (AlikeButForCell.store_left hm _ _).cells, ⟨rfl, rfl, rfl⟩⟩

/-! ### The state POP leaves -/

/-- The state that POP leaves; `exec_pop_of_eq` says so. -/
def State.popped (s : State) (ra : Reg) : State :=
  (s.setReg ra (s.cell s.sp)).incSp.setPc (s.pc + 2)

theorem popped_reg (s : State) (h : ra ≠ 7) : (s.popped ra).reg ra = s.cell s.sp :=
  (incSp_reg_other _ _ h).trans (setReg_reg_same _ _ _)

/-- The increment of SP reads SP after the write of the popped byte (D14). -/
theorem popped_sp_toNat (s : State) (ra : Reg) :
    (s.popped ra).sp.toNat = ((s.setReg ra (s.cell s.sp)).sp.toNat + 1) % 256 :=
  incSp_sp_toNat _

theorem popped_sp_toNat_of_ne (s : State) (h : ra ≠ 7) : (s.popped ra).sp.toNat = (s.sp.toNat + 1) % 256 := by
  have sp_kept : (s.setReg ra (s.cell s.sp)).sp = s.sp := setReg_reg_other _ _ _ _ h.symm
  rw [popped_sp_toNat, sp_kept]

theorem popped_sp_toNat_of_sp (s : State) : (s.popped 7).sp.toNat = ((s.cell s.sp).toNat + 1) % 256 := by
  have sp_popped : (s.setReg 7 (s.cell s.sp)).sp = s.cell s.sp := setReg_reg_same _ _ _
  rw [popped_sp_toNat, sp_popped]

theorem popped_sameRegsExcept (s : State) (ra : Reg) : SameRegsExcept [ra, 7] s (s.popped ra) := by
  intro r hr
  obtain ⟨not_ra, not_sp⟩ : r ≠ ra ∧ r ≠ 7 := by simpa using hr
  exact (incSp_reg_other _ _ not_sp).trans (setReg_reg_other _ _ _ _ not_ra)

/-- Settles O13: POP is the write of the popped byte, the increment of SP and the advance of `pc`, in this order. -/
theorem popFollowsItsRule : Obligations.PopFollowsItsRule := by
  unfold Obligations.PopFollowsItsRule
  refine ⟨fun a => ⟨rfl, decode_encode (.pop a)⟩, fun s a ra ha => ?_,
    fun _ bad => raisesRegisterIndex_of_first_bad (find?_bad_of_first bad []), raisesOperandAddress .pop⟩
  refine ⟨s.popped ra, exec_pop_of_eq ha, fun h => ⟨popped_reg s h, popped_sp_toNat_of_ne s h⟩, ?_, rfl,
    popped_sameRegsExcept s ra, fun _ _ => rfl, ⟨rfl, rfl, rfl⟩⟩
  rintro rfl
  exact popped_sp_toNat_of_sp s

/-! ### SP wraps -/

/-- Settles O29: the two updates of SP are modulo 256, and no one of the four instructions checks SP. -/
theorem stackPointerWrapsWithoutFault : Obligations.StackPointerWrapsWithoutFault := by
  unfold Obligations.StackPointerWrapsWithoutFault
  refine ⟨fun s t a ra hm ha h => ?_, fun s t a ra hm ha hp h => ?_, fun s t a ra ha not_sp h => ?_,
    fun s t a ha h => ?_, fun s t h => ?_, rfl⟩
  · cases (exec_push_of_eq ha).symm.trans h
    exact ⟨decSp_sp_toNat s, pushed_cell hm ra, rfl⟩
  · cases (exec_call_of_eq ha hp).symm.trans h
    exact ⟨decSp_sp_toNat s, called_cell_sp_toNat hm ra hp, rfl⟩
  · cases (exec_pop_of_eq ha).symm.trans h
    exact ⟨popped_reg s not_sp, popped_sp_toNat_of_ne s not_sp, rfl⟩
  · cases (exec_pop_of_eq (ra := 7) ha).symm.trans h
    exact ⟨popped_sp_toNat_of_sp s, rfl⟩
  · cases (exec_ret s).symm.trans h
    exact ⟨rfl, incSp_sp_toNat s, rfl⟩

end Sys2Proof.Machine
end

