-- ==== Sys2Proof/Proofs/Subtraction.lean ====
section
/-! The statement about SUB of 45_alu.md (R89): it shares effect and faults with the other arithmetic instructions, and
its operation is the exact difference modulo 256. -/

namespace Sys2Proof.Machine

/-- Settles O17: the ALU's difference in place, and the faults that the arithmetic instructions share. -/
theorem subFollowsItsRule : Obligations.SubFollowsItsRule := by
  unfold Obligations.SubFollowsItsRule
  refine ⟨fun a b => ⟨rfl, decode_encode (.sub a b)⟩, fun s a b ra rb ha hb => ?_, aluOp_faults .sub⟩
  obtain ⟨t, ran, difference, frame⟩ := exists_exec_aluOp_in_place .sub s ha hb
  exact ⟨t, ran, by rw [difference, alu_toNat, AluOp.exact], frame⟩

end Sys2Proof.Machine
end

