-- ==== Sys2Proof/Proofs/Invariant.lean ====
section
/-! The statements about what holds in every state the machine reaches: the invariant at RESET and under each step
(10_state.md R22, 60_exceptions.md R93 to R95), the same for the host's transactions, and `pc` after each instruction
(R22). All rest on one inversion of a step: it raises a truthful record and writes nothing else, or it completes with at
most one byte written. -/

namespace Sys2Proof.Machine

/-! ### Truthful records -/

theorem fetchAddressRecord_truthful (m : Memory) {p : Nat} (beyond : Config.memSize ≤ p) :
    (fetchAddressRecord p).Truthful m p :=
  ⟨rfl, beyond, rfl, rfl, rfl⟩

theorem illegalInstructionRecord_truthful {m : Memory} {p : Nat} {op : Byte} (hread : m.read? p = some op)
    (illegal : Opcode.ofByte? op = none) : (illegalInstructionRecord p op).Truthful m p :=
  ⟨rfl, op, hread, illegal, rfl, rfl, rfl⟩

theorem operandAddressRecord_truthful {s : State} {p : Nat} {o : Opcode} {got : List Byte}
    (hread : s.mem.read? p = some o.byte) (few : got.length < o.arity) (bytes : s.BytesAt (p + 1) got)
    (at_end : Config.memSize ≤ p + 1 + got.length) : (operandAddressRecord p o.byte got).Truthful s.mem p :=
  ⟨rfl, o, hread, rfl, few, bytes, rfl, at_end⟩

theorem registerIndexRecord_truthful {s : State} {p : Nat} {i : Instr} {v : Byte} (bytes : s.BytesAt p (encode i))
    (hv : v ∈ i.regOperands) (bad : Config.nregs ≤ v.toNat) : (registerIndexRecord p i v).Truthful s.mem p :=
  ⟨rfl, i, bytes, rfl, rfl, v, hv, rfl, bad⟩

theorem returnAddressRecord_truthful {s : State} {p : Nat} {a : Byte} (bytes : s.BytesAt p (encode (.call a)))
    (good : a.toNat < Config.nregs) (too_high : Config.memSize ≤ p + 2) :
    (returnAddressRecord p (.call a) (p + 2)).Truthful s.mem p :=
  ⟨rfl, a, bytes, good, rfl, rfl, rfl, too_high⟩

/-! ### What a step can do -/

/-- The memory is as before, or one byte has been written to it. -/
def WritesAtMostOnce (s t : State) : Prop := t.mem = s.mem ∨ ∃ a v, t.mem = s.mem.write a v

theorem WritesAtMostOnce.wf {s t : State} (h : WritesAtMostOnce s t) (hm : s.mem.wf) : t.mem.wf := by
  rcases h with same | ⟨a, v, written⟩
  · rwa [same]
  · exact written ▸ write_wf hm a v

/-- An instruction raises one of its two faults, or keeps the latch and leaves `pc` after itself or at a byte it has
read (R22, R71). -/
theorem exec_raised_or_advanced {i : Instr} {s t : State} (h : exec i s = .next t) :
    (∃ v ∈ i.regOperands, Config.nregs ≤ v.toNat ∧ t = s.raise (registerIndexRecord s.pc i v)) ∨
    (∃ a : Byte, i = .call a ∧ a.toNat < Config.nregs ∧ Config.memSize ≤ s.pc + 2 ∧
      t = s.raise (returnAddressRecord s.pc i (s.pc + 2))) ∨
    (t.fault = s.fault ∧ WritesAtMostOnce s t ∧ (t.pc = s.pc + i.opcode.len ∨ t.pc < Config.memSize)) := by
  rcases exec_cases i s with ⟨v, hv, bad, raised⟩ | ⟨a, ra, hi, ha, too_high, raised⟩ | ⟨_, t', done, effect⟩
  · exact .inl ⟨v, hv, bad, Host.Outcome.next.inj (h.symm.trans raised)⟩
  · exact .inr (.inl ⟨a, hi, ha ▸ ra.isLt, too_high, Host.Outcome.next.inj (h.symm.trans raised)⟩)
  · cases done.symm.trans h
    refine .inr (.inr ?_)
    cases i with
    | hlt => subst effect; exact ⟨rfl, .inl rfl, .inl rfl⟩
    | ret => subst effect; exact ⟨rfl, .inl rfl, .inr (s.cell s.sp).isLt⟩
    | prn _ | ldi _ _ | pop _ => obtain ⟨_, _, rfl⟩ := effect; exact ⟨rfl, .inl rfl, .inl rfl⟩
    | push _ => obtain ⟨_, _, rfl⟩ := effect; exact ⟨rfl, .inr ⟨_, _, rfl⟩, .inl rfl⟩
    | call _ => obtain ⟨ra, _, _, rfl⟩ := effect; exact ⟨rfl, .inr ⟨_, _, rfl⟩, .inr (s.decSp.reg ra).isLt⟩
    | add _ _ | sub _ _ | mul _ _ => obtain ⟨_, _, _, _, rfl⟩ := effect; exact ⟨rfl, .inl rfl, .inl rfl⟩
    | st _ _ => obtain ⟨_, _, _, _, rfl⟩ := effect; exact ⟨rfl, .inr ⟨_, _, rfl⟩, .inl rfl⟩

/-- A step latches a record that is true of the state it was raised in and writes nothing else, or it completes with
`pc` at most 256, since the instruction's own bytes lie below 256 (R22, R95). -/
theorem step_raised_or_advanced {s t : State} (h : step s = .next t) :
    (∃ r : FaultRecord, r.Truthful s.mem s.pc ∧ t = s.raise r) ∨
    (t.fault = none ∧ WritesAtMostOnce s t ∧ t.pc ≤ Config.memSize) := by
  obtain ⟨_, no_fault, hstep⟩ := live_of_step h
  rcases engineStep_cases s with
    ⟨beyond, raised⟩ | ⟨op, hread, illegal, raised⟩ | ⟨o, got, hread, few, bytes, at_end, raised⟩ |
    ⟨i, bytes, fits, ran⟩
  · exact .inl ⟨_, fetchAddressRecord_truthful _ beyond, Host.Outcome.next.inj (hstep.symm.trans raised)⟩
  · exact .inl ⟨_, illegalInstructionRecord_truthful hread illegal, Host.Outcome.next.inj (hstep.symm.trans raised)⟩
  · exact .inl ⟨_, operandAddressRecord_truthful hread few bytes at_end,
      Host.Outcome.next.inj (hstep.symm.trans raised)⟩
  · rcases exec_raised_or_advanced (ran.symm.trans hstep) with
      ⟨v, hv, bad, raised⟩ | ⟨a, rfl, good, too_high, raised⟩ | ⟨kept, written, advanced | in_range⟩
    · exact .inl ⟨_, registerIndexRecord_truthful bytes hv bad, raised⟩
    · exact .inl ⟨_, returnAddressRecord_truthful bytes good too_high, raised⟩
    · exact .inr ⟨kept.trans no_fault, written, advanced ▸ fits⟩
    · exact .inr ⟨kept.trans no_fault, written, in_range.le⟩

/-! ### The invariant -/

/-- Settles O5: no cell is listed, `pc` is 0 and no record is latched. -/
theorem resetMeetsTheInvariant : Obligations.ResetMeetsTheInvariant := by
  unfold Obligations.ResetMeetsTheInvariant
  exact ⟨reset_mem_wf, Nat.zero_le _, nofun⟩

/-- Settles O22: a raised record speaks of the memory and the `pc` that raising it keeps, and a step that completes
leaves no record to be true. -/
theorem everyStepKeepsTheInvariant : Obligations.EveryStepKeepsTheInvariant := by
  unfold Obligations.EveryStepKeepsTheInvariant
  intro s t ⟨hm, hp, _⟩ h
  rcases step_raised_or_advanced h with ⟨r, truthful, rfl⟩ | ⟨no_record, written, hp'⟩
  · exact ⟨hm, hp, fun r' hr' => Option.some.inj hr' ▸ truthful⟩
  · exact ⟨written.wf hm, hp', fun r' hr' => by cases no_record.symm.trans hr'⟩

/-! ### Transactions -/

theorem mem_wf_and_pc_le_of_step {s t : State} (h : step s = .next t) (hs : s.mem.wf ∧ s.pc ≤ 256) :
    t.mem.wf ∧ t.pc ≤ 256 := by
  rcases step_raised_or_advanced h with ⟨r, _, rfl⟩ | ⟨_, written, hp'⟩
  · exact hs
  · exact ⟨written.wf hs.1, hp'⟩

theorem mem_wf_and_pc_le_of_host {σ σ' : Session} {m : HostMove} {reply : Reply} (h : σ.host m = some (σ', reply))
    (hσ : σ.block.mem.wf ∧ σ.block.pc ≤ 256) : σ'.block.mem.wf ∧ σ'.block.pc ≤ 256 := by
  rcases host_cases h with rfl | ⟨_, ⟨_, rfl⟩ | ⟨_, t, _, loaded, rfl⟩ | ⟨_, rfl⟩⟩
  · exact hσ
  · exact ⟨reset_mem_wf, Nat.zero_le _⟩
  · have same_pc : t.pc = σ.block.pc := by rw [eq_of_load? loaded]
    exact ⟨load_wf hσ.1 loaded, same_pc ▸ hσ.2⟩
  · exact hσ

/-- A pass of the loop makes one step, or ends the RUN and leaves the block alone (R63, R73). -/
theorem step_or_eq_of_tick {σ σ' : Session} {e : EngineEvent} (h : σ.tick = some (σ', e)) :
    step σ.block = .next σ'.block ∨ σ'.block = σ.block := by
  obtain ⟨s, runOpen⟩ := σ
  cases runOpen with
  | false => cases (tick_of_closed s).symm.trans h
  | true =>
    cases result : s.runResult? with
    | none =>
      obtain ⟨t, stepped⟩ := status_running_iff_steps.1 (runResult?_eq_none_iff.1 result)
      obtain ⟨sent, hout, _⟩ := exists_sent_of_step stepped
      cases (tick_of_next stepped hout).symm.trans h
      exact .inl stepped
    | some res =>
      cases (tick_of_runResult result).symm.trans h
      exact .inr rfl

/-- Settles O45: RESET and LOAD bring canonical memory, RUN and SNAPSHOT keep memory and `pc`, and a pass is a step or
changes nothing in the block. -/
theorem transactionsKeepMemoryAndPc : Obligations.TransactionsKeepMemoryAndPc := by
  unfold Obligations.TransactionsKeepMemoryAndPc
  refine ⟨⟨reset_mem_wf, Nat.zero_le _⟩, fun σ σ' m reply hσ h => mem_wf_and_pc_le_of_host h hσ, fun σ σ' e hσ h => ?_⟩
  rcases step_or_eq_of_tick h with stepped | same
  · exact mem_wf_and_pc_le_of_step stepped hσ
  · rwa [same]

/-! ### The program counter -/

theorem pc_le_of_step_of_no_fault {s t : State} (h : step s = .next t) (no_fault : t.fault = none) : t.pc ≤ 256 := by
  rcases step_raised_or_advanced h with ⟨r, _, rfl⟩ | ⟨_, _, hp⟩
  · cases no_fault
  · exact hp

/-- Settles O23: the step runs the instruction whose bytes stand at `pc`, and without a fault that instruction has
completed with its own write of `pc`. -/
theorem pcAfterEachInstruction : Obligations.PcAfterEachInstruction := by
  unfold Obligations.PcAfterEachInstruction
  intro s t i h no_fault bytes
  refine ⟨pc_le_of_step_of_no_fault h no_fault, ?_⟩
  obtain ⟨running, clear, _⟩ := live_of_step h
  have ran : exec i s = .next t := (step_of_bytesAt ⟨running, clear⟩ bytes).symm.trans h
  rcases exec_cases i s with ⟨_, _, _, raised⟩ | ⟨_, _, _, _, _, raised⟩ | ⟨_, t', done, effect⟩
  · cases raised.symm.trans ran
    cases no_fault
  · cases raised.symm.trans ran
    cases no_fault
  · cases done.symm.trans ran
    cases i with
    | hlt | ret => subst effect; rfl
    | prn _ | ldi _ _ | push _ | pop _ => obtain ⟨_, _, rfl⟩ := effect; rfl
    | call _ => obtain ⟨ra, ha, _, rfl⟩ := effect; exact ⟨ra, ha, rfl⟩
    | add _ _ | sub _ _ | mul _ _ | st _ _ => obtain ⟨_, _, _, _, rfl⟩ := effect; rfl

end Sys2Proof.Machine
end

