-- ==== Sys2Proof/Proofs/Refinement.lean ====
section
/-! The statement that a step agrees with the pseudocode of 40_execution_engine.md R64 over arrays of naturals (`Flat`).
Each state operation has its counterpart on arrays, so each handler of R75 to R90 has; fetch and the checks of R96 are
compared by the bytes at `pc`. -/

namespace Sys2Proof.Machine

/-! ### State operations as operations on arrays -/

theorem flat_x (s : State) (r : Reg) : s.flat.x r.val = (s.reg r).toNat :=
  dif_pos r.isLt

theorem flat_x_sp (s : State) : s.flat.x 7 = s.sp.toNat := flat_x s Config.spIndex

theorem flat_mem_cell (s : State) (a : Addr) : s.flat.mem a.toNat = (s.cell a).toNat := rfl

theorem flat_setPc (s : State) (p : Nat) : (s.setPc p).flat = { s.flat with pc := p } := rfl

theorem flat_setRunning (s : State) (b : Bool) : (s.setRunning b).flat = { s.flat with running := b } := rfl

theorem flat_emit (s : State) (v : Byte) : (s.emit v).flat = { s.flat with out := s.flat.out ++ [v.toNat] } := by
  simp only [State.flat, State.emit, State.reg, List.map_append, List.map_cons, List.map_nil]

theorem flat_setReg (s : State) (r : Reg) (v : Byte) : (s.setReg r v).flat = s.flat.setX r.val v.toNat := by
  have registers : (s.setReg r v).flat.x = (s.flat.setX r.val v.toNat).x := by
    funext j
    by_cases hj : j < 8
    · have same_reg : (⟨j, hj⟩ : Reg) = r ↔ j = r.val := Fin.ext_iff
      simp only [State.flat, Flat.setX, hj, dif_pos, setReg_reg, same_reg]
      split <;> rfl
    · have other : j ≠ r.val := fun e => hj (e ▸ r.isLt)
      simp only [State.flat, Flat.setX, hj, other, dif_neg, not_false_eq_true, if_false]
  exact congrArg (fun x => { s.flat with x := x }) registers

theorem flat_store {s : State} (hm : s.mem.wf) (a : Addr) (v : Byte) :
    (s.store a v).flat = s.flat.memWrite a.toNat v.toNat := by
  have cells : (s.store a v).flat.mem = (s.flat.memWrite a.toNat v.toNat).mem := by
    funext b
    simp only [State.flat, Flat.memWrite, store_mem, Memory.write, lookup_put s.mem hm.1]
    split <;> rfl
  exact congrArg (fun m => { s.flat with mem := m }) cells

theorem flat_decSp (s : State) : s.decSp.flat = s.flat.setX 7 ((s.flat.x 7 + 255) % 256) := by
  rw [flat_x_sp, ← decSp_sp_toNat, decSp_sp]
  exact flat_setReg s Config.spIndex _

theorem flat_incSp (s : State) : s.incSp.flat = s.flat.setX 7 ((s.flat.x 7 + 1) % 256) := by
  rw [flat_x_sp, ← incSp_sp_toNat, incSp_sp]
  exact flat_setReg s Config.spIndex _

theorem flat_mem_of_read? {s : State} {a : Nat} {v : Byte} (h : s.mem.read? a = some v) : s.flat.mem a = v.toNat := by
  have in_range := lt_of_read?_eq_some h
  rw [read?_eq_some in_range, ← lookup_eq_read s.mem in_range] at h
  exact congrArg BitVec.toNat (Option.some.inj h)

/-- A record about the instruction at `pc` is raised alike in both descriptions. -/
theorem flat_raise (s : State) (kind : FaultKind) (op : Option Byte) (ops : List Byte) (value : Nat) :
    (s.raise ⟨kind, s.pc, op, ops, value⟩).flat =
      s.flat.raise kind (op.map BitVec.toNat) (ops.map BitVec.toNat) value := by
  have same_op : (op.map BitVec.toNat).map (BitVec.ofNat 8) = op := by cases op <;> simp
  have same_ops : (ops.map BitVec.toNat).map (BitVec.ofNat 8) = ops := by simp [Function.comp_def]
  rw [Flat.raise, same_op, same_ops]
  rfl

/-! ### The handlers -/

variable (f : Flat) (A B : Nat)

theorem handler_hlt : f.handler Opcode.hlt.byte.toNat A B = { f with running := false, pc := f.pc + 1 } := rfl

theorem handler_prn :
    f.handler Opcode.prn.byte.toNat A B = { f with out := f.out ++ [f.x A], pc := f.pc + 2 } := rfl

theorem handler_ldi : f.handler Opcode.ldi.byte.toNat A B = { f.setX A B with pc := f.pc + 3 } := rfl

theorem handler_push :
    f.handler Opcode.push.byte.toNat A B =
      let f1 := f.setX 7 ((f.x 7 + 255) % 256)
      { f1.memWrite (f1.x 7) (f1.x A) with pc := f.pc + 2 } := rfl

theorem handler_pop :
    f.handler Opcode.pop.byte.toNat A B =
      let f1 := f.setX A (f.mem (f.x 7))
      { f1.setX 7 ((f1.x 7 + 1) % 256) with pc := f.pc + 2 } := rfl

theorem handler_call_of_ge (h : 256 ≤ f.pc + 2) :
    f.handler Opcode.call.byte.toNat A B =
      f.raise (.outOfBoundsAccess .returnAddress) (some Opcode.call.byte.toNat) [A] (f.pc + 2) :=
  if_pos h

theorem handler_call_of_lt (h : f.pc + 2 < 256) :
    f.handler Opcode.call.byte.toNat A B =
      let f1 := f.setX 7 ((f.x 7 + 255) % 256)
      { f1.memWrite (f1.x 7) (f.pc + 2) with pc := f1.x A } :=
  if_neg (Nat.not_le.2 h)

theorem handler_ret :
    f.handler Opcode.ret.byte.toNat A B = { f.setX 7 ((f.x 7 + 1) % 256) with pc := f.mem (f.x 7) } := rfl

theorem handler_add :
    f.handler Opcode.add.byte.toNat A B = { f.setX A ((f.x A + f.x B) % 256) with pc := f.pc + 3 } := rfl

theorem handler_sub :
    f.handler Opcode.sub.byte.toNat A B = { f.setX A ((f.x A + 256 - f.x B) % 256) with pc := f.pc + 3 } := rfl

theorem handler_mul :
    f.handler Opcode.mul.byte.toNat A B = { f.setX A ((f.x A * f.x B) % 256) with pc := f.pc + 3 } := rfl

theorem handler_st :
    f.handler Opcode.st.byte.toNat A B = { f.memWrite (f.x A) (f.x B) with pc := f.pc + 3 } := rfl

/-- The difference of R89 over naturals: adding 256 first keeps it from being cut off at 0. -/
theorem byte_sub_toNat (x y : Byte) : (x - y).toNat = (x.toNat + 256 - y.toNat) % 256 := by
  have := y.isLt
  rw [BitVec.toNat_sub]
  omega

/-- Two naturals `A` and `B` are the operand bytes of the instruction, so far as it has them. -/
def OperandsAre (i : Instr) (A B : Nat) : Prop :=
  [A, B].take i.operands.length = i.operands.map BitVec.toNat

theorem operandsAre_one {i : Instr} {a : Byte} {A B : Nat} (hi : i.operands = [a]) :
    OperandsAre i A B ↔ A = a.toNat := by
  simp [OperandsAre, hi]

theorem operandsAre_two {i : Instr} {a b : Byte} {A B : Nat} (hi : i.operands = [a, b]) :
    OperandsAre i A B ↔ A = a.toNat ∧ B = b.toNat := by
  simp [OperandsAre, hi]

theorem operandsAre_of_bytesAt {s : State} {i : Instr} (bytes : s.BytesAt s.pc (encode i)) :
    OperandsAre i (s.flat.mem (s.pc + 1)) (s.flat.mem (s.pc + 2)) := by
  obtain ⟨_, operands⟩ := bytesAt_cons.1 bytes
  cases i with
  | hlt | ret => rfl
  | prn a | push a | pop a | call a =>
    obtain ⟨first, _⟩ := bytesAt_cons.1 operands
    exact (operandsAre_one rfl).2 (flat_mem_of_read? first)
  | ldi a b | add a b | sub a b | mul a b | st a b =>
    obtain ⟨first, others⟩ := bytesAt_cons.1 operands
    obtain ⟨second, _⟩ := bytesAt_cons.1 others
    exact (operandsAre_two rfl).2 ⟨flat_mem_of_read? first, flat_mem_of_read? second⟩

/-- An instruction whose register operands are good does what its handler does on arrays. -/
theorem flat_of_exec {i : Instr} {s t : State} {A B : Nat} (hm : s.mem.wf) (well_formed : i.WellFormed)
    (operands : OperandsAre i A B) (h : exec i s = .next t) :
    t.flat = s.flat.handler i.opcode.byte.toNat A B := by
  rcases exec_cases i s with ⟨v, hv, bad, _⟩ | ⟨a, _, rfl, _, too_high, raised⟩ | ⟨_, t', done, effect⟩
  · exact absurd (well_formed v hv) (Nat.not_lt.2 bad)
  · cases raised.symm.trans h
    obtain rfl := (operandsAre_one rfl).1 operands
    exact (flat_raise s _ (some Opcode.call.byte) [a] _).trans (handler_call_of_ge s.flat _ _ too_high).symm
  · cases done.symm.trans h
    cases i with
    | hlt =>
      subst effect
      simp only [Instr.opcode, handler_hlt, flat_setPc, flat_setRunning]
      rfl
    | ret =>
      subst effect
      simp only [Instr.opcode, handler_ret, flat_setPc, flat_incSp, flat_x_sp, flat_mem_cell]
    | prn a =>
      obtain ⟨ra, ha, rfl⟩ := effect
      obtain rfl := ((operandsAre_one rfl).1 operands).trans ha
      simp only [Instr.opcode, handler_prn, flat_setPc, flat_emit, flat_x]
      rfl
    | ldi a imm =>
      obtain ⟨ra, ha, rfl⟩ := effect
      obtain ⟨rfl, rfl⟩ := (operandsAre_two rfl).1 operands
      simp only [Instr.opcode, handler_ldi, flat_setPc, flat_setReg, ha]
      rfl
    | push a =>
      obtain ⟨ra, ha, rfl⟩ := effect
      obtain rfl := ((operandsAre_one rfl).1 operands).trans ha
      simp only [Instr.opcode, handler_push, ← flat_decSp]
      simp only [flat_setPc, flat_store (s := s.decSp) hm, flat_x, flat_x_sp]
      rfl
    | pop a =>
      obtain ⟨ra, ha, rfl⟩ := effect
      obtain rfl := ((operandsAre_one rfl).1 operands).trans ha
      simp only [Instr.opcode, handler_pop, flat_setPc, flat_incSp, flat_setReg, flat_x_sp, flat_mem_cell]
      rfl
    | call a =>
      obtain ⟨ra, ha, fits, rfl⟩ := effect
      obtain rfl := ((operandsAre_one rfl).1 operands).trans ha
      have pushed : (BitVec.ofNat 8 (s.pc + 2)).toNat = s.pc + 2 := Nat.mod_eq_of_lt fits
      simp only [Instr.opcode, handler_call_of_lt s.flat _ _ fits, ← flat_decSp]
      simp only [flat_setPc, flat_store (s := s.decSp) hm, flat_x, flat_x_sp, pushed]
      rfl
    | add a b | sub a b | mul a b =>
      obtain ⟨ra, rb, ha, hb, rfl⟩ := effect
      obtain ⟨rfl, rfl⟩ := (operandsAre_two rfl).1 operands
      simp only [Instr.opcode, handler_add, handler_sub, handler_mul, flat_setPc, flat_setReg, flat_x, ha, hb,
        BitVec.toNat_add, byte_sub_toNat, BitVec.toNat_mul]
      rfl
    | st a b =>
      obtain ⟨ra, rb, ha, hb, rfl⟩ := effect
      obtain ⟨rfl, rfl⟩ := (operandsAre_two rfl).1 operands
      simp only [Instr.opcode, handler_st, flat_setPc, flat_store hm, flat_x, ha, hb]
      rfl

/-! ### The opcode table of the pseudocode -/

/-- `REGOPS` of R64: which operand bytes of a format name registers. -/
def regPositions : Format → List Nat
  | .f0 => []
  | .fr | .fri => [1]
  | .frr => [1, 2]

theorem opcodeShape_byte (o : Opcode) : opcodeShape o.byte.toNat = some (o.arity, regPositions o.format) := by
  cases o <;> rfl

/-- The pseudocode's table has no row but those of R49. -/
theorem opcodeShape_cases (n : Nat) : opcodeShape n = none ∨ ∃ o : Opcode, n = o.byte.toNat := by
  unfold opcodeShape
  split_ifs with f0 fr fri frr
  · rcases f0 with rfl | rfl
    · exact .inr ⟨.hlt, rfl⟩
    · exact .inr ⟨.ret, rfl⟩
  · rcases fr with rfl | rfl | rfl | rfl
    · exact .inr ⟨.prn, rfl⟩
    · exact .inr ⟨.push, rfl⟩
    · exact .inr ⟨.pop, rfl⟩
    · exact .inr ⟨.call, rfl⟩
  · exact .inr ⟨.ldi, fri⟩
  · rcases frr with rfl | rfl | rfl | rfl
    · exact .inr ⟨.add, rfl⟩
    · exact .inr ⟨.sub, rfl⟩
    · exact .inr ⟨.mul, rfl⟩
    · exact .inr ⟨.st, rfl⟩
  · exact .inl rfl

theorem opcodeShape_eq_none {op : Byte} (h : Opcode.ofByte? op = none) : opcodeShape op.toNat = none := by
  rcases opcodeShape_cases op.toNat with no_row | ⟨o, ho⟩
  · exact no_row
  · exact absurd (BitVec.eq_of_toNat_eq ho) (ofByte?_eq_none_iff.1 h o)

/-! ### The checks -/

variable {f} {n : Nat} {regops : List Nat}

theorem flatStep_of_ge (h : 256 ≤ f.pc) : f.step = f.raise (.outOfBoundsAccess .fetchAddress) none [] f.pc :=
  if_pos h

theorem flatStep_of_illegal (in_range : f.pc < 256) (no_row : opcodeShape (f.mem f.pc) = none) :
    f.step = f.raise .illegalInstruction (some (f.mem f.pc)) [] (f.mem f.pc) := by
  simp only [Flat.step, Nat.not_le.2 in_range, if_false, no_row]

theorem flatStep_of_no_operand (last : f.pc = 255) (row : opcodeShape (f.mem f.pc) = some (n, regops)) (hn : 1 ≤ n) :
    f.step = f.raise (.outOfBoundsAccess .operandAddress) (some (f.mem f.pc)) [] (f.pc + 1) := by
  have in_range : ¬ 256 ≤ f.pc := by omega
  have missing : 1 ≤ n ∧ 256 ≤ f.pc + 1 := by omega
  simp only [Flat.step, in_range, if_false, row, missing, and_self, if_true]

theorem flatStep_of_one_operand (last : f.pc = 254) (row : opcodeShape (f.mem f.pc) = some (n, regops)) (hn : 2 ≤ n) :
    f.step =
      f.raise (.outOfBoundsAccess .operandAddress) (some (f.mem f.pc)) [f.mem (f.pc + 1)] (f.pc + 2) := by
  have in_range : ¬ 256 ≤ f.pc := by omega
  have first : ¬ (1 ≤ n ∧ 256 ≤ f.pc + 1) := by omega
  have missing : 2 ≤ n ∧ 256 ≤ f.pc + 2 := by omega
  simp only [Flat.step, in_range, if_false, row, first, missing, and_self, if_true]

/-- With all operand bytes in memory the step checks the register operands and runs the handler. -/
theorem flatStep_of_fits (fits : f.pc + n < 256) (row : opcodeShape (f.mem f.pc) = some (n, regops)) :
    f.step =
      let A := f.mem (f.pc + 1)
      let B := f.mem (f.pc + 2)
      if 1 ∈ regops ∧ 8 ≤ A then
        f.raise (.outOfBoundsAccess .registerIndex) (some (f.mem f.pc)) ([A, B].take n) A
      else if 2 ∈ regops ∧ 8 ≤ B then
        f.raise (.outOfBoundsAccess .registerIndex) (some (f.mem f.pc)) ([A, B].take n) B
      else f.handler (f.mem f.pc) A B := by
  have in_range : ¬ 256 ≤ f.pc := by omega
  have first : ¬ (1 ≤ n ∧ 256 ≤ f.pc + 1) := by omega
  have second : ¬ (2 ≤ n ∧ 256 ≤ f.pc + 2) := by omega
  simp only [Flat.step, in_range, if_false, row, first, second]

/-- The register operands of an instruction are its first operand bytes, those at the positions `REGOPS` (R52, R64). -/
theorem regOperands_cases (i : Instr) :
    (regPositions i.opcode.format = [] ∧ i.regOperands = []) ∨
    (∃ a others, regPositions i.opcode.format = [1] ∧ i.regOperands = [a] ∧ i.operands = a :: others) ∨
    (∃ a b, regPositions i.opcode.format = [1, 2] ∧ i.regOperands = [a, b] ∧ i.operands = [a, b]) := by
  cases i with
  | hlt | ret => exact .inl ⟨rfl, rfl⟩
  | prn a | push a | pop a | call a => exact .inr (.inl ⟨a, [], rfl, rfl, rfl⟩)
  | ldi a imm => exact .inr (.inl ⟨a, [imm], rfl, rfl, rfl⟩)
  | add a b | sub a b | mul a b | st a b => exact .inr (.inr ⟨a, b, rfl, rfl, rfl⟩)

/-- The step on arrays raises for the first bad register operand of the instruction at `pc`, or runs the handler (R70,
R96). -/
theorem flatStep_of_bytesAt {s : State} {i : Instr} (bytes : s.BytesAt s.pc (encode i)) :
    s.flat.step =
      (i.regOperands.find? (fun r => 8 ≤ r.toNat)).elim
        (s.flat.handler i.opcode.byte.toNat (s.flat.mem (s.pc + 1)) (s.flat.mem (s.pc + 2)))
        fun v => s.flat.raise (.outOfBoundsAccess .registerIndex) (some i.opcode.byte.toNat)
          (i.operands.map BitVec.toNat) v.toNat := by
  have same_pc : s.flat.pc = s.pc := rfl
  have op : s.flat.mem s.flat.pc = i.opcode.byte.toNat := flat_mem_of_read? (bytesAt_cons.1 bytes).1
  have fits : s.flat.pc + i.opcode.arity < 256 :=
    lt_of_read?_eq_some (bytes i.opcode.arity (by rw [encode_length]; exact Nat.lt_add_of_pos_left Nat.one_pos))
  have operands : OperandsAre i (s.flat.mem (s.pc + 1)) (s.flat.mem (s.pc + 2)) := operandsAre_of_bytesAt bytes
  rw [flatStep_of_fits fits (op ▸ opcodeShape_byte i.opcode), op, same_pc]
  generalize s.flat.mem (s.pc + 1) = A at operands ⊢
  generalize s.flat.mem (s.pc + 2) = B at operands ⊢
  rw [← (operands : _ = i.operands.map BitVec.toNat), operands_length]
  rcases regOperands_cases i with ⟨positions, regs⟩ | ⟨a, others, positions, regs, ops⟩ | ⟨a, b, positions, regs, ops⟩
  · simp [positions, regs]
  · rw [OperandsAre, ops] at operands
    obtain rfl : A = a.toNat := (List.cons.inj operands).1
    by_cases bad : 8 ≤ a.toNat <;> simp [positions, regs, bad]
  · obtain ⟨rfl, rfl⟩ := (operandsAre_two ops).1 operands
    by_cases bad : 8 ≤ a.toNat
    · simp [positions, regs, bad]
    · by_cases bad' : 8 ≤ b.toNat <;> simp [positions, regs, bad, bad']

/-! ### The step -/

/-- Where an operand byte is missing, none or one has been fetched, as no opcode has more than two (R69). -/
theorem flatStep_of_missing_operand {s : State} {o : Opcode} {got : List Byte}
    (opcode_at_pc : s.mem.read? s.pc = some o.byte) (few : got.length < o.arity)
    (bytes : s.BytesAt (s.pc + 1) got) (at_end : Config.memSize ≤ s.pc + 1 + got.length) :
    s.flat.step = s.flat.raise (.outOfBoundsAccess .operandAddress) (some o.byte.toNat) (got.map BitVec.toNat)
      (s.pc + 1 + got.length) := by
  have op : s.flat.mem s.flat.pc = o.byte.toNat := flat_mem_of_read? opcode_at_pc
  have row : opcodeShape (s.flat.mem s.flat.pc) = some (o.arity, regPositions o.format) := op ▸ opcodeShape_byte o
  have in_range : s.pc < 256 := lt_of_read?_eq_some opcode_at_pc
  have at_end : 256 ≤ s.pc + 1 + got.length := at_end
  match got with
  | [] =>
    have last : s.pc = 255 := by simp only [List.length_nil] at at_end; omega
    rw [flatStep_of_no_operand (f := s.flat) last row few, op]
    rfl
  | [b] =>
    have operand_at : s.mem.read? (s.pc + 1) = some b := (bytesAt_cons.1 bytes).1
    have in_range' : s.pc + 1 < 256 := lt_of_read?_eq_some operand_at
    have operand : s.flat.mem (s.flat.pc + 1) = b.toNat := flat_mem_of_read? operand_at
    have last : s.pc = 254 := by simp only [List.length_singleton] at at_end; omega
    rw [flatStep_of_one_operand (f := s.flat) last row few, op, operand]
    rfl
  | _ :: _ :: _ =>
    have := o.arity_le_two
    simp only [List.length_cons] at few
    omega

/-- Fetch, decode, the register check and the handler agree with the pseudocode, each where the step goes on to it. -/
theorem exists_engineStep_flat {s : State} (hm : s.mem.wf) : ∃ t, engineStep s = .next t ∧ t.flat = s.flat.step := by
  rcases engineStep_cases s with
    ⟨beyond, raised⟩ | ⟨op, hread, illegal, raised⟩ | ⟨o, got, hread, few, bytes, at_end, raised⟩ | ⟨i, bytes, _, ran⟩
  · exact ⟨_, raised, (flat_raise s _ none [] _).trans (flatStep_of_ge (f := s.flat) beyond).symm⟩
  · have op_at_pc : s.flat.mem s.flat.pc = op.toNat := flat_mem_of_read? hread
    refine ⟨_, raised, (flat_raise s _ (some op) [] _).trans ?_⟩
    rw [flatStep_of_illegal (lt_of_read?_eq_some hread) (op_at_pc ▸ opcodeShape_eq_none illegal), op_at_pc]
    rfl
  · exact ⟨_, raised,
      (flat_raise s _ (some o.byte) got _).trans (flatStep_of_missing_operand hread few bytes at_end).symm⟩
  · rw [ran, flatStep_of_bytesAt bytes]
    cases first_bad : i.regOperands.find? (fun r => 8 ≤ r.toNat) with
    | some v => exact ⟨_, exec_of_first_bad first_bad, flat_raise s _ (some i.opcode.byte) i.operands _⟩
    | none =>
      have well_formed : i.WellFormed := by simpa using first_bad
      obtain ⟨t, done⟩ := exists_exec_eq_next i s
      exact ⟨t, done, flat_of_exec hm well_formed (operandsAre_of_bytesAt bytes) done⟩

/-- Settles O21: a live state's step is the engine's, which agrees with the pseudocode on every path. -/
theorem stepRefinesThePseudocode : Obligations.StepRefinesThePseudocode := by
  unfold Obligations.StepRefinesThePseudocode
  intro s hm ⟨running, no_fault⟩
  rw [step_of_live running no_fault]
  exact exists_engineStep_flat hm

end Sys2Proof.Machine
end
